-- ==== Sys2Proof/Word.lean ====
section
/-! DEFINITION. The data type every other file speaks of, the bit sequence. CORE has no machine word of a
fixed width (spec 20_memory.md R52: no byte, no word, no endianness). A packed word and a field are the
natural numbers they spell (00_scope.md R13): bit `i` is `Nat.testBit i`, bit 0 the least significant; how
wide they may be depends on the open widths `LW` and `IW`, so it is checked (WellFormed.lean), not typed. -/

namespace Sys2Proof

/-- A bit sequence (00_scope.md R9): an ordered list of binary digits, element 0 the leading (leftmost)
bit. Its length is the list's length; the empty sequence is `[]`. -/
abbrev BitSeq := List Bool

end Sys2Proof
end

