-- ==== Sys2Proof/Syntax.lean ====
section
/-! DEFINITION. What goes over the two ports: the command record (spec 30_encoding.md R70, R72) and the
response record (R76, R78). Every row of spec/opcode_table.json is one constructor of `Instr`, the three
reserved opcodes among them, since a reserved opcode is answered like any other command (R75). -/

namespace Sys2Proof

/-- The six fields of a command beside `OP` (30_encoding.md R70). All are present in every command, also
those an operation ignores (R73, R74). `lena`, `lenb`, `x`, `y` are the natural numbers they spell (R80);
`seqa`, `seqb` are the field values, element `i` of the sequence being bit `i` (20_memory.md R53). -/
structure Fields where
  lena : Nat
  lenb : Nat
  x    : Nat
  y    : Nat
  seqa : Nat
  seqb : Nat
deriving DecidableEq, Repr, Inhabited

/-- The commands, one constructor per opcode (30_encoding.md R72, R75). -/
inductive Instr where
  /-- `OP = 1`, CRC.DIV: the remainder of a modulo-2 division (40_crc.md R104). -/
  | crcDiv (f : Fields)
  /-- `OP = 2`, CRC.VFY: is the remainder all zeros (40_crc.md R105). -/
  | crcVfy (f : Fields)
  /-- `OP = 3`, CRC.VFYX: verify and return the payload (40_crc.md R106). -/
  | crcVfyx (f : Fields)
  /-- `OP = 4`, HAM.VAL: the redundancy predicate (41_hamming.md R134). -/
  | hamVal (f : Fields)
  /-- `OP = 5`, HAM.DEC: decode one block (41_hamming.md R136). -/
  | hamDec (f : Fields)
  /-- `OP = 0`, reserved (30_encoding.md R75). -/
  | reserved0 (f : Fields)
  /-- `OP = 6`, reserved (30_encoding.md R75). -/
  | reserved6 (f : Fields)
  /-- `OP = 7`, reserved (30_encoding.md R75). -/
  | reserved7 (f : Fields)
deriving DecidableEq, Repr

/-- The fields of a command, whichever its opcode: there is one command format, `F0` (R70). -/
def Instr.fields : Instr → Fields
  | .crcDiv f => f
  | .crcVfy f => f
  | .crcVfyx f => f
  | .hamVal f => f
  | .hamDec f => f
  | .reserved0 f => f
  | .reserved6 f => f
  | .reserved7 f => f

/-- The outcome kinds (30_encoding.md R78). The codes 5 to 7 are reserved and never produced, so the type
does not hold them (93_implementation_defined.md U9). -/
inductive Status where
  | ok
  | invalidInput
  | verificationFailed
  | uncorrectablePosition
  /-- Set aside for the host, which forms it from a HAM.VAL answer (60_exceptions.md R175). -/
  | configurationInvalid
deriving DecidableEq, Repr, Inhabited

/-- The causes within `InvalidInput` (30_encoding.md R78); `none` with every other status. The codes 6
and 7 are reserved and never produced (93_implementation_defined.md U9). -/
inductive Detail where
  | none
  | illegalOp
  | badGenerator
  | frameShort
  | lengthMismatch
  | layoutMismatch
deriving DecidableEq, Repr, Inhabited

/-- The response record (30_encoding.md R76). `obits` is the field value: element `i` of the result
sequence is its bit `i` (20_memory.md R53). -/
structure Response where
  status : Status
  detail : Detail
  flag   : Bool
  ccnt   : Fin 2
  olen   : Nat
  synd   : Nat
  obits  : Nat
deriving DecidableEq, Repr, Inhabited

end Sys2Proof
end

