-- ==== Sys2Proof/Config.lean ====
section
/-! DEFINITION. What an implementation fixes, the two open widths of the spec (00_scope.md R6, R7; nothing
else is parameterised, R8), and the one free value of the model. -/

namespace Sys2Proof

/-- The two open parameters, with the bounds the spec puts on them (00_scope.md R6, R7). -/
structure Params where
  /-- `LW`, the width of every length field (R6). -/
  lw       : Nat
  /-- `IW`, the width of the integer operands (R7). -/
  iw       : Nat
  one_le_lw : 1 ≤ lw
  lw_le_iw  : lw ≤ iw
deriving DecidableEq, Repr

/-- `LMAX = 2^LW - 1`, the longest sequence and the width of every sequence field (00_scope.md R6). -/
def Params.lmax (p : Params) : Nat := 2 ^ p.lw - 1

/-- The recommended instantiation, `LW = 8`, `IW = 32` (00_scope.md R6, R7). The machine of
`State.reset` is built with it; nothing else depends on it (DESIGN CHOICE, log 2). -/
def Config.recommended : Params := ⟨8, 32, by decide, by decide⟩

/-- The small instantiation, `LW = 4`, `IW = 8`, of the written-out encodings (00_scope.md R6, R7). -/
def Config.small : Params := ⟨4, 8, by decide, by decide⟩

/-- A FREE VALUE (log 4): what the register `RSP` holds from a TAKE or a RESET until the next command,
which the spec calls unspecified (10_state.md R30, R31, R33). It is applied to the counter
`State.freeCount`, so that no two such values are related. -/
opaque Config.freeRsp : Nat → Response

end Sys2Proof
end

