-- ==== Sys2Proof/WellFormed.lean ====
section
/-! DEFINITION. Which records fit the ports of an implementation with given widths: the checks on a
command (spec 30_encoding.md R70) and on a response (R76). -/

namespace Sys2Proof

/-- Every field fits its width (30_encoding.md R70): `LENA`, `LENB` in `LW` bits, `X`, `Y` in `IW` bits,
`SEQA`, `SEQB` in `LMAX` bits. -/
def Fields.wf (p : Params) (f : Fields) : Bool :=
  decide (f.lena < 2 ^ p.lw) && decide (f.lenb < 2 ^ p.lw) &&
  decide (f.x < 2 ^ p.iw) && decide (f.y < 2 ^ p.iw) &&
  decide (f.seqa < 2 ^ p.lmax) && decide (f.seqb < 2 ^ p.lmax)

/-- A command can be expressed on the command port iff its fields fit (30_encoding.md R70). -/
def Instr.wf (p : Params) (i : Instr) : Bool := i.fields.wf p

/-- Every field of a response fits its width (30_encoding.md R76): `OLEN`, `SYND` in `LW` bits, `OBITS`
in `LMAX` bits. The widths of the other fields are in their types. -/
def Response.wf (p : Params) (r : Response) : Bool :=
  decide (r.olen < 2 ^ p.lw) && decide (r.synd < 2 ^ p.lw) && decide (r.obits < 2 ^ p.lmax)

end Sys2Proof
end

