-- ==== Sys2Proof/Decode.lean ====
section
/-! DEFINITION. The packed command word (spec 30_encoding.md R71, R72): the decoder, total on any number
and rejecting by name what is no command word, and after it the encoder, both from the table of R71. -/

namespace Sys2Proof

/-- `F[lo+n-1 : lo]`, the unsigned value of `n` bits of a word from bit `lo` (00_scope.md R13). -/
def bitField (w : Nat) (lo n : Nat) : Nat := (w >>> lo) % 2 ^ n

/-! ### The layout of `CMD` (30_encoding.md R71): the lowest bit of each field, and the width. -/

def Params.lenaLo (_ : Params) : Nat := 3
def Params.lenbLo (p : Params) : Nat := p.lw + 3
def Params.xLo (p : Params) : Nat := 2 * p.lw + 3
def Params.yLo (p : Params) : Nat := 2 * p.lw + p.iw + 3
def Params.seqaLo (p : Params) : Nat := 2 * p.lw + 2 * p.iw + 3
def Params.seqbLo (p : Params) : Nat := 2 * p.lw + 2 * p.iw + p.lmax + 3

/-- `CW`, the width of a command word (30_encoding.md R71). -/
def Params.cw (p : Params) : Nat := 3 + 2 * p.lw + 2 * p.iw + 2 * p.lmax

/-- Why a number is not a command. -/
inductive DecodeError where
  /-- It has a bit at index `CW` or above: the command port has no such wire (30_encoding.md R71). -/
  | tooWide
  /-- No row of the opcode map; it cannot happen, since the map has a row for each of the eight values
  of the 3-bit `OP` (30_encoding.md R72). -/
  | noRow
deriving DecidableEq, Repr

/-- The opcode map (30_encoding.md R72), the reserved rows included. -/
def instrOfOp (op : Nat) (f : Fields) : Option Instr :=
  match op with
  | 0 => some (.reserved0 f)
  | 1 => some (.crcDiv f)
  | 2 => some (.crcVfy f)
  | 3 => some (.crcVfyx f)
  | 4 => some (.hamVal f)
  | 5 => some (.hamDec f)
  | 6 => some (.reserved6 f)
  | 7 => some (.reserved7 f)
  | _ => none

/-- The six fields of a command word beside `OP` (30_encoding.md R71). -/
def fieldsOfWord (p : Params) (w : Nat) : Fields where
  lena := bitField w p.lenaLo p.lw
  lenb := bitField w p.lenbLo p.lw
  x    := bitField w p.xLo p.iw
  y    := bitField w p.yLo p.iw
  seqa := bitField w p.seqaLo p.lmax
  seqb := bitField w p.seqbLo p.lmax

/-- `w` is a word of `n` bits. It is `w < 2^n` (`Sys2Proof.fitsWord_iff`), asked by a shift, since a power
as large as `2^CW` is what an evaluator declines to write out. -/
def fitsWord (w n : Nat) : Bool := w >>> n == 0

/-- The decoder. `CMD[2:0]` alone selects the operation (30_encoding.md R71, R72). -/
def decode (p : Params) (w : Nat) : Except DecodeError Instr :=
  if fitsWord w p.cw then
    match instrOfOp (bitField w 0 3) (fieldsOfWord p w) with
    | some i => .ok i
    | none => .error .noRow
  else .error .tooWide

/-- `OP` of a command (30_encoding.md R72). -/
def Instr.opcode : Instr → Nat
  | .reserved0 _ => 0
  | .crcDiv _ => 1
  | .crcVfy _ => 2
  | .crcVfyx _ => 3
  | .hamVal _ => 4
  | .hamDec _ => 5
  | .reserved6 _ => 6
  | .reserved7 _ => 7

/-- The command word of a command: each field at the place the table of R71 gives it. -/
def encode (p : Params) (i : Instr) : Nat :=
  i.opcode + i.fields.lena <<< p.lenaLo + i.fields.lenb <<< p.lenbLo + i.fields.x <<< p.xLo +
    i.fields.y <<< p.yLo + i.fields.seqa <<< p.seqaLo + i.fields.seqb <<< p.seqbLo

/-- The word whose `nbits` low bits are `w`'s and whose bits above are 0. -/
def lowBits (nbits w : Nat) : Nat := if fitsWord w nbits then w else w % 2 ^ nbits

/-- What the decoder reads from a row of spec/opcode_table.json: the `nbits` low bits are `w`'s, every bit
above is 0, and the widths are those of the machine after reset. -/
def decodeTableWord (nbits w : Nat) : Option Instr :=
  match decode Config.recommended (lowBits nbits w) with
  | .ok i => some i
  | .error _ => none

end Sys2Proof
end

