-- ==== Sys2Proof/Machine/State.lean ====
section
/-! DEFINITION. The state of the machine as plain data. CORE's own state is `phase` and `rsp` and nothing
else (spec 10_state.md R21, R23, R24, R26; 20_memory.md R50: no register file, no program counter, no
control register, no memory). Beside it stand the widths the block is built with, the two ports seen from
the host's side, and the counter of the free value. -/

namespace Sys2Proof.Machine

/-- `PHASE` (10_state.md R21): `IDLE` (0), the command port accepts; `DONE` (1), a response waits. -/
inductive Phase where
  | idle
  | done
deriving DecidableEq, Repr

/-- The three transitions a host can ask for (10_state.md R29 to R31; 70_reset_and_hazards.md R214). -/
inductive HostStep where
  | issue
  | take
  | reset
deriving DecidableEq, Repr

/-- One response as the host read it off the response port, with the command that produced it
(70_reset_and_hazards.md R214: the (command, response) pairs delivered by TAKE). -/
structure Delivery where
  command  : Option Instr
  response : Response
deriving DecidableEq, Repr

/-- The machine. -/
structure State where
  /-- The widths `LW`, `IW` of this block; no step changes them (00_scope.md R6, R7; log 2). -/
  params    : Params
  /-- `PHASE` (10_state.md R21). -/
  phase     : Phase
  /-- `RSP`, the response holding register (10_state.md R21, 30_encoding.md R76). -/
  rsp       : Response
  /-- The command words the host presents at the command port, in order: the first is on the port, and
  stays there until it is accepted (10_state.md R29; log 3). -/
  cmds      : List Nat
  /-- Which transition the host asks for next, and after it (70_reset_and_hazards.md R214; log 3). -/
  sched     : List HostStep
  /-- The host's own note of the last command accepted, for pairing a response with its command (log 5). -/
  inFlight  : Option Instr
  /-- What the host has taken so far, oldest first (70_reset_and_hazards.md R214; log 5). -/
  delivered : List Delivery
  /-- How many free values have been used (log 4). -/
  freeCount : Nat
deriving DecidableEq, Repr

/-- CORE stops with no fault: no trap (60_exceptions.md R170), no stuck state (R178). What a processor
would raise is an error response, a next state. So this type has no constructor. -/
inductive Fault where
deriving DecidableEq, Repr

/-- Where the model gives no meaning. -/
inductive Refusal where
  /-- An instruction not modelled, by its mnemonic; no arm of `exec` raises it. Safe. -/
  | notModelled (mnemonic : String)
  /-- Raised by `step` when the number presented at the command port has a bit at index `CW` or above, so
  that it is no command word (30_encoding.md R71). Safe: no host can present it. -/
  | notACommandWord
deriving DecidableEq, Repr

/-- The machine right after reset (10_state.md R33, 70_reset_and_hazards.md R200): `PHASE = IDLE`. The
contents of `RSP` are unspecified there; the zero here is the model's (DESIGN CHOICE, log 1). The host
presents nothing and has taken nothing. -/
def State.reset : State where
  params    := Config.recommended
  phase     := .idle
  rsp       := { status := .ok, detail := .none, flag := false, ccnt := 0, olen := 0, synd := 0, obits := 0 }
  cmds      := []
  sched     := []
  inFlight  := none
  delivered := []
  freeCount := 0

end Sys2Proof.Machine
end

