-- ==== Sys2Proof/Machine/Ops.lean ====
section
/-! DEFINITION. The operations every meaning is made of: reading and writing bit sequences (spec
00_scope.md R9 to R12, 20_memory.md R53), forming a response, an error response among them (30_encoding.md
R79, 60_exceptions.md R176), its packed word (R77), and the three transitions at the ports (10_state.md
R29 to R31). -/

namespace Sys2Proof.Machine

/-! ### Bit sequences -/

/-- `S[i]`, the element at a 0-based index (00_scope.md R9). -/
def bitAt (S : BitSeq) (i : Nat) : Bool := S.getD i false

/-- `pos(S, p) = S[p-1]`, the element at a 1-based position (00_scope.md R10). -/
def posAt (S : BitSeq) (p : Nat) : Bool := bitAt S (p - 1)

/-- The positions `1 .. n` in ascending order (00_scope.md R16, the form `for p = 1 to n`). -/
def positions (n : Nat) : List Nat := List.range' 1 n

/-- The sequence of `len` bits that a field carries: element `i` is bit `i` of the field, and the field's
bits from index `len` up are ignored (20_memory.md R53). -/
def ofField (len : Nat) (v : Nat) : BitSeq := (List.range len).map v.testBit

/-- The field that carries a sequence: bit `i` is element `i`, and every bit past the last element is 0
(20_memory.md R53). -/
def toField : BitSeq → Nat
  | [] => 0
  | b :: S => b.toNat + 2 * toField S

/-- `0^k`, the sequence of `k` zeros (00_scope.md R11). -/
def zeros (k : Nat) : BitSeq := List.replicate k false

/-- Bitwise xor of two sequences (00_scope.md R12). -/
def xorSeq (S T : BitSeq) : BitSeq := List.zipWith Bool.xor S T

/-- Flip the element at a 0-based index (00_scope.md R12: 0 to 1, 1 to 0). -/
def flipAt (S : BitSeq) (i : Nat) : BitSeq := S.modify i (!·)

/-! ### Responses -/

/-- The response with every field 0, from which each outcome sets the fields it defines: a field an
outcome does not define is 0 (30_encoding.md R79, 00_scope.md R16). -/
def blankResponse : Response where
  status := .ok
  detail := .none
  flag   := false
  ccnt   := 0
  olen   := 0
  synd   := 0
  obits  := 0

/-- `raise <Kind>(<Detail>)`, the one way an operation reports an error (60_exceptions.md R176): the kind,
its detail only for InvalidInput, the syndrome only for UncorrectablePosition, every other field 0. -/
def raise (kind : Status) (detail : Detail) (synd : Nat) : Response :=
  { blankResponse with
    status := kind
    detail := if kind = .invalidInput then detail else .none
    synd   := if kind = .uncorrectablePosition then synd else 0 }

/-- The code of a status (30_encoding.md R78). -/
def statusCode : Status → Nat
  | .ok => 0
  | .invalidInput => 1
  | .verificationFailed => 2
  | .uncorrectablePosition => 3
  | .configurationInvalid => 4

/-- The code of a detail (30_encoding.md R78). -/
def detailCode : Detail → Nat
  | .none => 0
  | .illegalOp => 1
  | .badGenerator => 2
  | .frameShort => 3
  | .lengthMismatch => 4
  | .layoutMismatch => 5

/-- The status with a code; none for a reserved code (30_encoding.md R78). -/
def statusOfCode : Nat → Option Status
  | 0 => some .ok
  | 1 => some .invalidInput
  | 2 => some .verificationFailed
  | 3 => some .uncorrectablePosition
  | 4 => some .configurationInvalid
  | _ => none

/-- The detail with a code; none for a reserved code (30_encoding.md R78). -/
def detailOfCode : Nat → Option Detail
  | 0 => some .none
  | 1 => some .illegalOp
  | 2 => some .badGenerator
  | 3 => some .frameShort
  | 4 => some .lengthMismatch
  | 5 => some .layoutMismatch
  | _ => none

/-- `RW`, the width of a response word (30_encoding.md R77). -/
def rspWidth (p : Params) : Nat := 8 + 2 * p.lw + p.lmax

/-- The packed response word (30_encoding.md R77). -/
def packRsp (p : Params) (r : Response) : Nat :=
  statusCode r.status + detailCode r.detail <<< 3 + r.flag.toNat <<< 6 + r.ccnt.val <<< 7 +
    r.olen <<< 8 + r.synd <<< (p.lw + 8) + r.obits <<< (2 * p.lw + 8)

/-- The response a response word spells (30_encoding.md R77); none for a reserved code, which CORE never
produces (R78), and for a number wider than the word. -/
def unpackRsp (p : Params) (w : Nat) : Option Response :=
  if fitsWord w (rspWidth p) then
    match statusOfCode (bitField w 0 3), detailOfCode (bitField w 3 3) with
    | some status, some detail =>
      some { status
             detail
             flag  := w.testBit 6
             ccnt  := if w.testBit 7 then 1 else 0
             olen  := bitField w 8 p.lw
             synd  := bitField w (p.lw + 8) p.lw
             obits := bitField w (2 * p.lw + 8) p.lmax }
    | _, _ => none
  else none

/-! ### The transitions at the ports -/

/-- `RSP <- r` and `PHASE <- DONE` in one atomic step (10_state.md R29). -/
def State.holdResponse (r : Response) (s : State) : State := { s with phase := .done, rsp := r }

/-- The effect of every command, error responses included (10_state.md R29, 60_exceptions.md R176): the
response is formed and held. It is enabled iff `PHASE = IDLE`; while a response waits, the command is held
at the port and nothing changes. -/
def issue (r : Response) (s : State) : Host.Outcome State Fault Refusal :=
  if s.phase = .idle then .next (s.holdResponse r) else .next s

/-- The host's request for a transition is used up. -/
def State.popSched (s : State) : State := { s with sched := s.sched.tail }

/-- The command port lets the presented command in: it leaves the port, and the host notes which it was
(10_state.md R29). -/
def State.accept (i : Instr) (s : State) : State :=
  { s with cmds := s.cmds.tail, inFlight := some i }

/-- The command the port lets in, if it does (10_state.md R29): none while a response waits (the host is
held) and none when the host presents nothing. -/
def portCommand (s : State) : Option (Except DecodeError Instr) :=
  match s.phase, s.cmds with
  | .idle, w :: _ => some (decode s.params w)
  | .idle, [] => none
  | .done, _ => none

/-- `RSP` becomes unspecified (10_state.md R30, R31): a free value (log 4). -/
def State.forgetRsp (s : State) : State :=
  { s with rsp := Config.freeRsp s.freeCount, freeCount := s.freeCount + 1 }

/-- TAKE (10_state.md R30), enabled iff `PHASE = DONE`: the host reads `RSP`, once; then `PHASE <- IDLE`
and `RSP` is unspecified. With nothing to take, nothing happens. This is also how an error response is
acknowledged: there is no other return (60_exceptions.md R179). -/
def State.takeRsp (s : State) : State :=
  match s.phase with
  | .done =>
    { s.forgetRsp with
      phase := .idle, inFlight := none, delivered := s.delivered ++ [⟨s.inFlight, s.rsp⟩] }
  | .idle => s

/-- RESET (10_state.md R31, 70_reset_and_hazards.md R200, R202), enabled in every state: `PHASE <- IDLE`,
`RSP` is unspecified, and a response not yet taken is lost. It changes nothing else (R201). -/
def State.resetCore (s : State) : State :=
  { s.forgetRsp with phase := .idle, inFlight := none }

/-- The host presents `w` as its next command and asks for it to be issued next, with the port free. -/
def State.present (w : Nat) (s : State) : State :=
  { s with phase := .idle, inFlight := none, cmds := w :: s.cmds, sched := .issue :: s.sched }

end Sys2Proof.Machine
end

