-- ==== Sys2Proof/Machine/Flags.lean ====
section
/-! DEFINITION. The two result flags of a response, `FLAG` and `CCNT` (spec 10_state.md R25); CORE has no
other flag. -/

namespace Sys2Proof.Machine

/-- `S = 0` for a sequence: every element is 0, which the empty sequence satisfies (00_scope.md R11). It
is `FLAG` of CRC.VFY (40_crc.md R105). -/
def allZero (S : BitSeq) : Bool := S.all (!·)

/-- The redundancy predicate `2^r >= a + r + 1` (41_hamming.md R133), which is `FLAG` of HAM.VAL, exact on
natural numbers. The power is not built (00_scope.md R14): `a + r < 2^r` says that `a + r` has no bit at
index `r` or above. -/
def redundancyOk (a r : Nat) : Bool := (a + r) >>> r == 0

/-- `CCNT` of HAM.DEC: how many bits a syndrome makes it correct (41_hamming.md R136, steps 3 and 4). -/
def correctedCount (s : Nat) : Fin 2 := if s = 0 then 0 else 1

end Sys2Proof.Machine
end

