-- ==== Sys2Proof/Machine/Operands.lean ====
section
/-! DEFINITION. The operand forms: which fields of a command each operation reads, and as what (spec
30_encoding.md R73). Fields and bits not read here are ignored (R74). -/

namespace Sys2Proof.Machine

/-- Sequence `A`: the first `LENA` bits of `SEQA` (30_encoding.md R70). -/
def seqA (f : Fields) : BitSeq := ofField f.lena f.seqa

/-- Sequence `B`: the first `LENB` bits of `SEQB` (30_encoding.md R70). -/
def seqB (f : Fields) : BitSeq := ofField f.lenb f.seqb

/-- `D`, the dividend of CRC.DIV and the frame of CRC.VFY and CRC.VFYX (R73). -/
def crcFrame (f : Fields) : BitSeq := seqA f

/-- `L`, its length (R73). -/
def crcFrameLen (f : Fields) : Nat := f.lena

/-- `G`, the divisor of CRC.DIV and the generator of CRC.VFY and CRC.VFYX (R73). -/
def crcGen (f : Fields) : BitSeq := seqB f

/-- `g`, its length (R73). -/
def crcGenLen (f : Fields) : Nat := f.lenb

/-- The payload length `m` of HAM.VAL (R73; 41_hamming.md R133; 90_conflicts.md C1). -/
def valPayloadLen (f : Fields) : Nat := f.x

/-- The redundancy count `r` of HAM.VAL (R73). -/
def valRedundancy (f : Fields) : Nat := f.y

/-- `E`, the encoded block of HAM.DEC (R73). -/
def hamBlock (f : Fields) : BitSeq := seqA f

/-- `len(E)` (R73). -/
def hamBlockLen (f : Fields) : Nat := f.lena

/-- `n`, the total block length of HAM.DEC (R73). -/
def decTotalLen (f : Fields) : Nat := f.x

/-- `m`, the payload length of HAM.DEC (R73). -/
def decPayloadLen (f : Fields) : Nat := f.y

end Sys2Proof.Machine
end

