-- ==== Sys2Proof/Machine/Crc.lean ====
section
/-! DEFINITION. The CRC unit (spec 40_crc.md): the input checks, the modulo-2 division, and the meanings
of CRC.DIV, CRC.VFY and CRC.VFYX. -/

namespace Sys2Proof.Machine

/-- `crc_check(L, G, g)` (40_crc.md R102): the first check that fails, in the rule's order. -/
def crcCheck (L : Nat) (G : BitSeq) (g : Nat) : Option Detail :=
  if g = 0 then some .badGenerator
  else if bitAt G 0 = false then some .badGenerator
  else if L < g then some .frameShort
  else none

/-- The window `W[i .. i+g-1]` replaced by its xor with the generator (40_crc.md R103, the inner loop). -/
def xorWindow (G W : BitSeq) (i : Nat) : BitSeq :=
  W.take i ++ (xorSeq (W.drop i) G ++ W.drop (i + G.length))

/-- One window position of the scan (40_crc.md R103): xor when the window's leading bit is 1. -/
def scanStep (G W : BitSeq) (i : Nat) : BitSeq := if bitAt W i then xorWindow G W i else W

/-- The working copy after the window positions `0 .. k-1`, left to right (40_crc.md R103). -/
def scan (G D : BitSeq) (k : Nat) : BitSeq := (List.range k).foldl (scanStep G) D

/-- `mod2div(D, L, G, g)` (40_crc.md R103): scan every window position `0 .. L-g`, then return the
trailing `g-1` bits `W[L-g+1 .. L-1]`. -/
def mod2div (D : BitSeq) (L : Nat) (G : BitSeq) (g : Nat) : BitSeq :=
  (scan G D (L - g + 1)).drop (L - g + 1)

/-- What the three CRC operations share (40_crc.md): the checks before any arithmetic, then the division,
whose remainder they answer with in their own way. -/
def crcOp (f : Fields) (answer : BitSeq → Response) : Response :=
  match crcCheck (crcFrameLen f) (crcGen f) (crcGenLen f) with
  | some d => raise .invalidInput d 0
  | none => answer (mod2div (crcFrame f) (crcFrameLen f) (crcGen f) (crcGenLen f))

/-- CRC.DIV (40_crc.md R104): the remainder. -/
def crcDiv (f : Fields) : Response :=
  crcOp f fun R => { blankResponse with olen := crcGenLen f - 1, obits := toField R }

/-- CRC.VFY (40_crc.md R105): is the remainder all zeros. -/
def crcVfy (f : Fields) : Response :=
  crcOp f fun R => { blankResponse with flag := allZero R }

/-- CRC.VFYX (40_crc.md R106): the leading `L-g+1` bits of the frame as received, or VerificationFailed. -/
def crcVfyx (f : Fields) : Response :=
  crcOp f fun R =>
    if allZero R then
      { blankResponse with
        olen  := crcFrameLen f - crcGenLen f + 1
        obits := toField ((crcFrame f).take (crcFrameLen f - crcGenLen f + 1)) }
    else raise .verificationFailed .none 0

/-- The meaning of CRC.DIV. -/
def execCrcDiv (f : Fields) (s : State) : Host.Outcome State Fault Refusal := issue (crcDiv f) s

/-- The meaning of CRC.VFY. -/
def execCrcVfy (f : Fields) (s : State) : Host.Outcome State Fault Refusal := issue (crcVfy f) s

/-- The meaning of CRC.VFYX. -/
def execCrcVfyx (f : Fields) (s : State) : Host.Outcome State Fault Refusal := issue (crcVfyx f) s

end Sys2Proof.Machine
end

