-- ==== Sys2Proof/Machine/Hamming.lean ====
section
/-! DEFINITION. The Hamming unit (spec 41_hamming.md): the parity positions, the syndrome, the payload,
and the meanings of HAM.VAL and HAM.DEC. All positions are 1-based. -/

namespace Sys2Proof.Machine

/-- `ispow2(p)`: `p` is an exact power of two (00_scope.md R15), namely that of its own logarithm. -/
def isPow2 (p : Nat) : Bool := p == 2 ^ p.log2

/-- The parity position set of a block of length `n`, ascending (41_hamming.md R131). -/
def parityPositions (n : Nat) : List Nat := (positions n).filter isPow2

/-- The payload positions: all others in `[1, n]`, ascending (41_hamming.md R131). -/
def payloadPositions (n : Nat) : List Nat := (positions n).filter (!isPow2 ·)

/-- `K(n)`, the number of powers of two in `[1, n]` (00_scope.md R15). -/
def parityCount (n : Nat) : Nat := (parityPositions n).length

/-- `syndrome(E, n)` (41_hamming.md R132): the positions that hold a 1, accumulated by xor. -/
def syndrome (E : BitSeq) (n : Nat) : Nat :=
  (positions n).foldl (fun S p => if posAt E p then S ^^^ p else S) 0

/-- `payload(B, n)` (41_hamming.md R137): the bits at the payload positions, in ascending order. -/
def payload (B : BitSeq) (n : Nat) : BitSeq := (payloadPositions n).map (posAt B)

/-- `ham_check(LENA, n, m)` (41_hamming.md R135): the first check that fails, in the rule's order. -/
def hamCheck (lena n m : Nat) : Option Detail :=
  if lena ≠ n then some .lengthMismatch
  else if m ≠ n - parityCount n then some .layoutMismatch
  else none

/-- The working copy after steps 3 and 4 (41_hamming.md R136): the bit at position `S` flipped, if any. -/
def corrected (E : BitSeq) (S : Nat) : BitSeq := if S = 0 then E else flipAt E (S - 1)

/-- Steps 2 to 6 of the decode (41_hamming.md R136), after the checks. -/
def decodeBlock (E : BitSeq) (n m : Nat) : Response :=
  let S := syndrome E n
  if S ≤ n then
    { blankResponse with
      ccnt  := correctedCount S
      olen  := m
      synd  := S
      obits := toField (payload (corrected E S) n) }
  else raise .uncorrectablePosition .none S

/-- HAM.VAL (41_hamming.md R134): the predicate, always with status OK. -/
def hamVal (f : Fields) : Response :=
  { blankResponse with flag := redundancyOk (valPayloadLen f) (valRedundancy f) }

/-- HAM.DEC (41_hamming.md R136): the checks before any arithmetic, then the decode. -/
def hamDec (f : Fields) : Response :=
  match hamCheck (hamBlockLen f) (decTotalLen f) (decPayloadLen f) with
  | some d => raise .invalidInput d 0
  | none => decodeBlock (hamBlock f) (decTotalLen f) (decPayloadLen f)

/-- The meaning of HAM.VAL. -/
def execHamVal (f : Fields) (s : State) : Host.Outcome State Fault Refusal := issue (hamVal f) s

/-- The meaning of HAM.DEC. -/
def execHamDec (f : Fields) (s : State) : Host.Outcome State Fault Refusal := issue (hamDec f) s

end Sys2Proof.Machine
end

