-- ==== Sys2Proof/Machine/Reserved.lean ====
section
/-! DEFINITION. The reserved opcodes 0, 6 and 7 (spec 30_encoding.md R75): each is answered like any other
command, with InvalidInput/ILLEGAL_OP, whatever its other fields. -/

namespace Sys2Proof.Machine

/-- The answer to a reserved opcode (30_encoding.md R75). -/
def illegalOp : Response := raise .invalidInput .illegalOp 0

/-- The meaning of `OP = 0`. -/
def execReserved0 (_ : Fields) (s : State) : Host.Outcome State Fault Refusal := issue illegalOp s

/-- The meaning of `OP = 6`. -/
def execReserved6 (_ : Fields) (s : State) : Host.Outcome State Fault Refusal := issue illegalOp s

/-- The meaning of `OP = 7`. -/
def execReserved7 (_ : Fields) (s : State) : Host.Outcome State Fault Refusal := issue illegalOp s

end Sys2Proof.Machine
end

