-- ==== Sys2Proof/Machine/Dispatch.lean ====
section
/-! DEFINITION. One arm per command: the semantics column of the opcode map (spec 30_encoding.md R72, R75). -/

namespace Sys2Proof.Machine

/-- What a command does at the moment it is presented (10_state.md R29). -/
def exec (i : Instr) (s : State) : Host.Outcome State Fault Refusal :=
  match i with
  | .crcDiv f => Sys2Proof.Machine.execCrcDiv f s
  | .crcVfy f => Sys2Proof.Machine.execCrcVfy f s
  | .crcVfyx f => Sys2Proof.Machine.execCrcVfyx f s
  | .hamVal f => Sys2Proof.Machine.execHamVal f s
  | .hamDec f => Sys2Proof.Machine.execHamDec f s
  | .reserved0 f => Sys2Proof.Machine.execReserved0 f s
  | .reserved6 f => Sys2Proof.Machine.execReserved6 f s
  | .reserved7 f => Sys2Proof.Machine.execReserved7 f s

end Sys2Proof.Machine
end

