-- ==== Sys2Proof/Machine/Step.lean ====
section
/-! DEFINITION. One step of the machine: the transition the host asks for next (spec 70_reset_and_hazards.md
R214). A transition asked for while it is not enabled does nothing, and with nothing asked for nothing
happens (60_exceptions.md R181). -/

namespace Sys2Proof.Machine

/-- One transition (10_state.md R29 to R31). -/
def step (s : State) : Host.Outcome State Fault Refusal :=
  match s.sched with
  | [] => .next s
  | .issue :: _ =>
    match portCommand s with
    | none => .next s.popSched
    | some (.error _) => .refused .notACommandWord
    | some (.ok i) => exec i (s.popSched.accept i)
  | .take :: _ => .next s.popSched.takeRsp
  | .reset :: _ => .next s.popSched.resetCore

/-- `s` with the command whose `nbits` low bits are `w`'s, every bit above 0, presented next to a free
command port and asked to be issued by the very next step (log 3). -/
def State.withFetchWord (s : State) (nbits w : Nat) : State := s.present (lowBits nbits w)

end Sys2Proof.Machine
end

