-- ==== Sys2Proof/Machine/Run.lean ====
section
/-! DEFINITION. Runs of CORE (spec 70_reset_and_hazards.md R214): finite or infinite sequences of the three
transitions, chosen by the host and each enabled. The lists `State.cmds` and `State.sched` are the choices
the host has already made; in a run it makes each choice when the last step is done, so a run need not end
(log 3). -/

namespace Sys2Proof.Machine

/-- One transition with the command it carries (10_state.md R29 to R31): ISSUE of a command word, TAKE,
RESET. -/
inductive Move where
  | issue (w : Nat)
  | take
  | reset
deriving DecidableEq, Repr

/-- When a transition is enabled (10_state.md R29, R30, R31); an ISSUE is of a command word of
this block (30_encoding.md R71). -/
def Move.enabled (s : State) : Move → Prop
  | .issue w => s.phase = .idle ∧ ∃ i, decode s.params w = .ok i
  | .take => s.phase = .done
  | .reset => True

/-- The host asks for `m` as the very next transition, presenting its command if it has one. -/
def State.ask (m : Move) (s : State) : State :=
  match m with
  | .issue w => { s with cmds := w :: s.cmds, sched := .issue :: s.sched }
  | .take => { s with sched := .take :: s.sched }
  | .reset => { s with sched := .reset :: s.sched }

/-- `h` are the host's choices and `σ` the states of a run that follows them from `σ 0`: transition `n`,
if there is one, is enabled in `σ n` and is the step to `σ (n + 1)`; with none the run is over
(70_reset_and_hazards.md R214). The run is infinite iff no `h n` is none. -/
structure IsRun (h : Nat → Option Move) (σ : Nat → State) : Prop where
  enabled : ∀ n m, h n = some m → m.enabled (σ n)
  next    : ∀ n m, h n = some m → step ((σ n).ask m) = .next (σ (n + 1))
  stops   : ∀ n, h n = none → σ (n + 1) = σ n ∧ h (n + 1) = none

end Sys2Proof.Machine
end

