-- ==== Sys2Proof/Safety.lean ====
section
/-! DEFINITION. The terms the claims are stated in: what a command answers, what a safe run is, and the
spec's own words for operands (well-formed generator, layout-consistent sizes, code word). -/

namespace Sys2Proof.Machine

/-- From every state in which the command port accepts, `i` completes with the response `r`, and nothing
but `PHASE` and `RSP` changes (spec 10_state.md R29, R32: `r` is `exec(i)` of the spec). -/
def Answers (i : Instr) (r : Response) : Prop :=
  ∀ s : State, s.phase = .idle → exec i s = .next { s with phase := .done, rsp := r }

/-- `r` is the response CORE owes to the command `c`: `c` is a command of this block's command port, and
`r` is what it answers (70_reset_and_hazards.md R214). -/
def Owed (p : Params) (c : Option Instr) (r : Response) : Prop :=
  ∃ i, c = some i ∧ i.wf p = true ∧ Answers i r

/-- What holds along every run (10_state.md R21, 20_memory.md R58, 70_reset_and_hazards.md R214): the
response that waits, and every response delivered, is the one its own command determines; and while no
response waits the host has no command in flight. -/
structure State.Inv (s : State) : Prop where
  idle      : s.phase = .idle → s.inFlight = none
  pending   : s.phase = .done → Owed s.params s.inFlight s.rsp
  delivered : ∀ d ∈ s.delivered, Owed s.params d.command d.response

/-- No response waits to be taken (70_reset_and_hazards.md R214). -/
def State.quiescent (s : State) : Bool := s.phase == .idle

/-- Well-formed generator: non-empty and starting with bit 1 (40_crc.md R100). -/
def WellFormedGen (G : BitSeq) : Prop := 1 ≤ G.length ∧ bitAt G 0 = true

/-- What `crc_check` accepts (40_crc.md R102). -/
def CrcInputsGood (f : Fields) : Prop :=
  1 ≤ f.lenb ∧ f.seqb.testBit 0 = true ∧ f.lenb ≤ f.lena

/-- Layout-consistent sizes (41_hamming.md R135). -/
def LayoutConsistent (n m : Nat) : Prop := m = n - parityCount n

/-- A code word of length `n` (41_hamming.md R138). -/
def IsCodeWord (C : BitSeq) (n : Nat) : Prop := C.length = n ∧ syndrome C n = 0

/-- Two values have the same bits below index `len`. -/
def SameBitsBelow (len : Nat) (v w : Nat) : Prop := ∀ k < len, v.testBit k = w.testBit k

/-- Two commands agree on the opcode and on every field and bit the operation reads (30_encoding.md R73). -/
def AgreeOnRead : Instr → Instr → Prop
  | .crcDiv f, .crcDiv g => AgreeOnCrc f g
  | .crcVfy f, .crcVfy g => AgreeOnCrc f g
  | .crcVfyx f, .crcVfyx g => AgreeOnCrc f g
  | .hamVal f, .hamVal g => f.x = g.x ∧ f.y = g.y
  | .hamDec f, .hamDec g =>
    f.lena = g.lena ∧ f.x = g.x ∧ f.y = g.y ∧ SameBitsBelow f.lena f.seqa g.seqa
  | .reserved0 _, .reserved0 _ => True
  | .reserved6 _, .reserved6 _ => True
  | .reserved7 _, .reserved7 _ => True
  | _, _ => False
where
  /-- What the CRC operations read: both sequences, `X` and `Y` ignored. -/
  AgreeOnCrc (f g : Fields) : Prop :=
    f.lena = g.lena ∧ f.lenb = g.lenb ∧ SameBitsBelow f.lena f.seqa g.seqa ∧
      SameBitsBelow f.lenb f.seqb g.seqb

/-- `poly(S)` over the two-element field, the leading bit the highest power (40_crc.md R108). -/
noncomputable def poly : BitSeq → Polynomial (ZMod 2)
  | [] => 0
  | b :: S => (if b then Polynomial.X ^ S.length else 0) + poly S

end Sys2Proof.Machine
end

