-- ==== Sys2Proof/Certificates/Slice0/Obligations.lean ====
section
/-! DEFINITION. The statements for the provers, from the spec's numbered rules. `s.phase = .idle` is the
condition under which the command port accepts (10_state.md R29); a response is written with its seven
fields in the order of 30_encoding.md R76: status, detail, FLAG, CCNT, OLEN, SYND, OBITS; and a sequence
`R` is all zeros iff no element is 1, `true ∉ R` (00_scope.md R11). -/

open Sys2Proof Sys2Proof.Machine

/-! ### The two packed words -/

/-- No bit of a command is dropped: decoding the word of a command that fits its fields gives it back, for
every width. -/
def Obligations.DecodeOfEncodeIsIdentity : Prop :=
  ∀ (p : Params) (i : Instr), i.wf p = true → decode p (encode p i) = .ok i

/-- Each command word spells one command, and that command's word is the same word again. -/
def Obligations.EncodeOfDecodeIsIdentity : Prop :=
  ∀ (p : Params) (w : Nat) (i : Instr), decode p w = .ok i → encode p i = w ∧ i.wf p = true

/-- Every number that fits `CMD` is a command, reserved opcodes included; every other is rejected by name. -/
def Obligations.EveryCommandWordDecodes : Prop :=
  ∀ (p : Params) (w : Nat),
    (w < 2 ^ (3 + 2 * p.lw + 2 * p.iw + 2 * (2 ^ p.lw - 1)) → ∃ i, decode p w = .ok i) ∧
    (2 ^ (3 + 2 * p.lw + 2 * p.iw + 2 * (2 ^ p.lw - 1)) ≤ w → decode p w = .error .tooWide)

/-- R71, bit by bit: which bit of `CMD` each bit of each field is, and that bits `[2:0]` alone select the
operation. -/
def Obligations.CommandWordLayout : Prop :=
  ∀ (p : Params) (w : Nat) (i : Instr), decode p w = .ok i →
    w < 2 ^ (3 + 2 * p.lw + 2 * p.iw + 2 * p.lmax) ∧
    (∀ k, i.opcode.testBit k = (decide (k < 3) && w.testBit k)) ∧
    (∀ k, i.fields.lena.testBit k = (decide (k < p.lw) && w.testBit (3 + k))) ∧
    (∀ k, i.fields.lenb.testBit k = (decide (k < p.lw) && w.testBit (p.lw + 3 + k))) ∧
    (∀ k, i.fields.x.testBit k = (decide (k < p.iw) && w.testBit (2 * p.lw + 3 + k))) ∧
    (∀ k, i.fields.y.testBit k = (decide (k < p.iw) && w.testBit (2 * p.lw + p.iw + 3 + k))) ∧
    (∀ k, i.fields.seqa.testBit k =
      (decide (k < p.lmax) && w.testBit (2 * p.lw + 2 * p.iw + 3 + k))) ∧
    (∀ k, i.fields.seqb.testBit k =
      (decide (k < p.lmax) && w.testBit (2 * p.lw + 2 * p.iw + p.lmax + 3 + k))) ∧
    (∀ w' i', decode p w' = .ok i' → w' % 8 = w % 8 → i'.opcode = i.opcode)

/-- The opcode map: `OP` values 1 to 5 are the five operations, 0, 6 and 7 the reserved commands. -/
def Obligations.OpcodeMap : Prop :=
  ∀ (p : Params) (w : Nat), w < 2 ^ p.cw →
    (w % 8 = 0 → ∃ f, decode p w = .ok (.reserved0 f)) ∧
    (w % 8 = 1 → ∃ f, decode p w = .ok (.crcDiv f)) ∧
    (w % 8 = 2 → ∃ f, decode p w = .ok (.crcVfy f)) ∧
    (w % 8 = 3 → ∃ f, decode p w = .ok (.crcVfyx f)) ∧
    (w % 8 = 4 → ∃ f, decode p w = .ok (.hamVal f)) ∧
    (w % 8 = 5 → ∃ f, decode p w = .ok (.hamDec f)) ∧
    (w % 8 = 6 → ∃ f, decode p w = .ok (.reserved6 f)) ∧
    (w % 8 = 7 → ∃ f, decode p w = .ok (.reserved7 f))

/-- Words written out in 95_test_vectors.md section 4 (`LW = 4`, `IW = 8`) decode to what they stand for. -/
def Obligations.WrittenOutWordsDecode : Prop :=
  decode Config.small 0x0002C0028000231 = .ok (.crcDiv ⟨6, 4, 0, 0, 0x05, 0xB⟩) ∧
  decode Config.small 0x0002C00E8000232 = .ok (.crcVfy ⟨6, 4, 0, 0, 0x1D, 0xB⟩) ∧
  decode Config.small 0x0002C00A8000233 = .ok (.crcVfyx ⟨6, 4, 0, 0, 0x15, 0xB⟩) ∧
  decode Config.small 0x000000000205804 = .ok (.hamVal ⟨0, 0, 11, 4, 0, 0⟩) ∧
  decode Config.small 0x00002E37858787D = .ok (.hamDec ⟨15, 0, 15, 11, 0x5C6F, 0⟩) ∧
  decode Config.small 0x000000000000000 = .ok (.reserved0 ⟨0, 0, 0, 0, 0, 0⟩)

/-- R77, bit by bit: where each field of a response stands in the response word, and how wide that is. -/
def Obligations.ResponseWordLayout : Prop :=
  ∀ (p : Params) (r : Response), r.wf p = true →
    packRsp p r < 2 ^ (8 + 2 * p.lw + p.lmax) ∧
    (∀ k < 3, (packRsp p r).testBit k = (statusCode r.status).testBit k) ∧
    (∀ k < 3, (packRsp p r).testBit (3 + k) = (detailCode r.detail).testBit k) ∧
    (packRsp p r).testBit 6 = r.flag ∧
    (packRsp p r).testBit 7 = decide (r.ccnt = 1) ∧
    (∀ k < p.lw, (packRsp p r).testBit (8 + k) = r.olen.testBit k) ∧
    (∀ k < p.lw, (packRsp p r).testBit (p.lw + 8 + k) = r.synd.testBit k) ∧
    (∀ k < p.lmax, (packRsp p r).testBit (2 * p.lw + 8 + k) = r.obits.testBit k)

/-- A response that fits its fields is read back from its word, and a word that spells a response is that
response's word. -/
def Obligations.ResponseWordRoundTrip : Prop :=
  ∀ (p : Params),
    (∀ r : Response, r.wf p = true → unpackRsp p (packRsp p r) = some r) ∧
    (∀ (w : Nat) (r : Response), unpackRsp p w = some r → packRsp p r = w ∧ r.wf p = true)

/-- R53: element `i` of a sequence is bit `i` of its field, position `p` is bit `p-1`, input bits from the
length up are ignored, and output bits from the length up are 0, in the response of every command. -/
def Obligations.SequenceElementIsFieldBit : Prop :=
  (∀ f : Fields, (seqA f).length = f.lena ∧ (seqB f).length = f.lenb ∧
    (∀ i < f.lena, bitAt (seqA f) i = f.seqa.testBit i) ∧
    (∀ i < f.lenb, bitAt (seqB f) i = f.seqb.testBit i) ∧
    (∀ q, 1 ≤ q → q ≤ f.lena → posAt (seqA f) q = f.seqa.testBit (q - 1))) ∧
  (∀ f g : Fields, f.lena = g.lena → SameBitsBelow f.lena f.seqa g.seqa → seqA f = seqA g) ∧
  (∀ f g : Fields, f.lenb = g.lenb → SameBitsBelow f.lenb f.seqb g.seqb → seqB f = seqB g) ∧
  (∀ O : BitSeq, (∀ i < O.length, (toField O).testBit i = bitAt O i) ∧
    (∀ i, O.length ≤ i → (toField O).testBit i = false)) ∧
  (∀ (i : Instr) (r : Response), Answers i r → ∀ k, r.olen ≤ k → r.obits.testBit k = false)

/-! ### The CRC unit -/

/-- R103: the division, by the working copy after each window position. `W i k` is element `k` of the
working copy before window position `i`; the remainder is the trailing `g-1` elements after the last. -/
def Obligations.DivisionScansLeftToRight : Prop :=
  ∀ (D G : BitSeq) (W : Nat → Nat → Bool), WellFormedGen G → G.length ≤ D.length →
    (∀ k, W 0 k = bitAt D k) →
    (∀ i k, W (i + 1) k =
      if W i i = true ∧ i ≤ k ∧ k < i + G.length then Bool.xor (W i k) (bitAt G (k - i)) else W i k) →
    (mod2div D D.length G G.length).length = G.length - 1 ∧
    ∀ j < G.length - 1, bitAt (mod2div D D.length G G.length) j =
      W (D.length - G.length + 1) (D.length - G.length + 1 + j)

/-- R104: CRC.DIV completes with the remainder when its inputs are good, and with the cause when not. -/
def Obligations.CrcDivAnswersRemainder : Prop :=
  ∀ (f : Fields) (s : State), s.phase = .idle →
    (CrcInputsGood f → exec (.crcDiv f) s = .next { s with
      phase := .done
      rsp := ⟨.ok, .none, false, 0, f.lenb - 1, 0,
        toField (mod2div (seqA f) f.lena (seqB f) f.lenb)⟩ }) ∧
    (f.lenb = 0 ∨ f.seqb.testBit 0 = false → exec (.crcDiv f) s = .next { s with
      phase := .done, rsp := ⟨.invalidInput, .badGenerator, false, 0, 0, 0, 0⟩ }) ∧
    (f.lenb ≠ 0 → f.seqb.testBit 0 = true → f.lena < f.lenb → exec (.crcDiv f) s = .next { s with
      phase := .done, rsp := ⟨.invalidInput, .frameShort, false, 0, 0, 0, 0⟩ })

/-- R105: CRC.VFY completes with `FLAG` saying whether the remainder is all zeros, a non-zero remainder
being no error; and with the cause when its inputs are not good. -/
def Obligations.CrcVfyAnswersFlag : Prop :=
  ∀ (f : Fields) (s : State), s.phase = .idle →
    (CrcInputsGood f →
      (true ∉ mod2div (seqA f) f.lena (seqB f) f.lenb →
        exec (.crcVfy f) s = .next { s with
          phase := .done, rsp := ⟨.ok, .none, true, 0, 0, 0, 0⟩ }) ∧
      (true ∈ mod2div (seqA f) f.lena (seqB f) f.lenb →
        exec (.crcVfy f) s = .next { s with
          phase := .done, rsp := ⟨.ok, .none, false, 0, 0, 0, 0⟩ })) ∧
    (f.lenb = 0 ∨ f.seqb.testBit 0 = false → exec (.crcVfy f) s = .next { s with
      phase := .done, rsp := ⟨.invalidInput, .badGenerator, false, 0, 0, 0, 0⟩ }) ∧
    (f.lenb ≠ 0 → f.seqb.testBit 0 = true → f.lena < f.lenb → exec (.crcVfy f) s = .next { s with
      phase := .done, rsp := ⟨.invalidInput, .frameShort, false, 0, 0, 0, 0⟩ })

/-- R106: CRC.VFYX completes with the leading `L-g+1` bits of the frame as received when the remainder is
all zeros, with VerificationFailed when it is not, and with the cause when its inputs are not good. The
leading bits of the frame are the low bits of `SEQA` (R53). -/
def Obligations.CrcVfyxAnswersPayload : Prop :=
  ∀ (f : Fields) (s : State), s.phase = .idle →
    (CrcInputsGood f →
      (true ∉ mod2div (seqA f) f.lena (seqB f) f.lenb →
        exec (.crcVfyx f) s = .next { s with
          phase := .done
          rsp := ⟨.ok, .none, false, 0, f.lena - f.lenb + 1, 0,
            f.seqa % 2 ^ (f.lena - f.lenb + 1)⟩ }) ∧
      (true ∈ mod2div (seqA f) f.lena (seqB f) f.lenb →
        exec (.crcVfyx f) s = .next { s with
          phase := .done, rsp := ⟨.verificationFailed, .none, false, 0, 0, 0, 0⟩ })) ∧
    (f.lenb = 0 ∨ f.seqb.testBit 0 = false → exec (.crcVfyx f) s = .next { s with
      phase := .done, rsp := ⟨.invalidInput, .badGenerator, false, 0, 0, 0, 0⟩ }) ∧
    (f.lenb ≠ 0 → f.seqb.testBit 0 = true → f.lena < f.lenb → exec (.crcVfyx f) s = .next { s with
      phase := .done, rsp := ⟨.invalidInput, .frameShort, false, 0, 0, 0, 0⟩ })

/-- R102: the CRC checks come before any arithmetic, in their order. When one fails, the response is its
cause and no part of a result, the same for all three operations and for every frame and every further
generator bit: only the two lengths and the generator's leading bit matter. -/
def Obligations.FailedCrcCheckReadsNoFrameBit : Prop :=
  ∀ op ∈ [Instr.crcDiv, Instr.crcVfy, Instr.crcVfyx], ∀ op' ∈ [Instr.crcDiv, Instr.crcVfy, Instr.crcVfyx],
  ∀ f g : Fields, ¬ CrcInputsGood f → f.lena = g.lena → f.lenb = g.lenb →
    f.seqb.testBit 0 = g.seqb.testBit 0 →
    let r : Response :=
      ⟨.invalidInput, if f.lenb = 0 ∨ f.seqb.testBit 0 = false then .badGenerator else .frameShort,
        false, 0, 0, 0, 0⟩
    Answers (op f) r ∧ Answers (op' g) r

/-- R107 (the spec marks it as its own inference, `[derived: ...]`): after the window position `i` the
elements `0 .. i` of the working copy are all 0; at the end only the trailing `g-1` can be non-zero. -/
def Obligations.ScanClearsLeadingBits : Prop :=
  ∀ (D G : BitSeq), WellFormedGen G → G.length ≤ D.length →
    (∀ i ≤ D.length - G.length, ∀ k ≤ i, bitAt (scan G D (i + 1)) k = false) ∧
    (∀ k ≤ D.length - G.length, bitAt (scan G D (D.length - G.length + 1)) k = false)

/-- R108 (the spec marks it as its own inference, `[derived: ...]`): the remainder is the residue of the
dividend modulo the generator, as polynomials over the two-element field. -/
def Obligations.RemainderIsPolynomialResidue : Prop :=
  ∀ (D G : BitSeq), WellFormedGen G → G.length ≤ D.length →
    poly (mod2div D D.length G G.length) = poly D %ₘ poly G ∧
    (mod2div D D.length G G.length).length = G.length - 1

/-- R109 (the spec marks it as its own inference, `[derived: ...]`): the division is linear; the remainder
of a corrupted frame is the frame's remainder xor the error pattern's; and a valid frame with an error
pattern verifies iff the pattern's own remainder is zero. -/
def Obligations.DivisionIsLinear : Prop :=
  (∀ (D E G : BitSeq), WellFormedGen G → G.length ≤ D.length → D.length = E.length →
    mod2div (xorSeq D E) D.length G G.length =
      xorSeq (mod2div D D.length G G.length) (mod2div E E.length G G.length)) ∧
  (∀ (f : Fields) (F E : BitSeq) (s : State), s.phase = .idle → CrcInputsGood f →
    F.length = f.lena → E.length = f.lena → seqA f = xorSeq F E →
    true ∉ mod2div F f.lena (seqB f) f.lenb →
    exec (.crcVfy f) s = .next { s with
      phase := .done
      rsp := ⟨.ok, .none, decide (true ∉ mod2div E f.lena (seqB f) f.lenb), 0, 0, 0, 0⟩ })

/-- R110 (the spec marks it as its own inference, `[derived: ...]`): a frame built as payload, then the
remainder CRC.DIV answers for the payload followed by `g-1` zeros, verifies, gives the payload back, and no
other `g-1` check bits do. -/
def Obligations.BuiltFrameVerifies : Prop :=
  ∀ (P G : BitSeq) (d v : Fields) (s : State), s.phase = .idle → WellFormedGen G → 1 ≤ P.length →
    d.lenb = G.length → v.lenb = G.length → seqB d = G → seqB v = G →
    d.lena = P.length + (G.length - 1) → seqA d = P ++ zeros (G.length - 1) →
    ∃ R : BitSeq, R.length = G.length - 1 ∧
      exec (.crcDiv d) s = .next { s with
        phase := .done, rsp := ⟨.ok, .none, false, 0, G.length - 1, 0, toField R⟩ } ∧
      (v.lena = P.length + (G.length - 1) → seqA v = P ++ R →
        exec (.crcVfy v) s = .next { s with
          phase := .done, rsp := ⟨.ok, .none, true, 0, 0, 0, 0⟩ } ∧
        exec (.crcVfyx v) s = .next { s with
          phase := .done, rsp := ⟨.ok, .none, false, 0, P.length, 0, toField P⟩ }) ∧
      (∀ R' : BitSeq, R'.length = G.length - 1 →
        true ∉ mod2div (P ++ R') (P.length + (G.length - 1)) G G.length → R' = R)

/-- R111 (the spec marks it as its own inference, `[derived: ...]`): with at least two 1 bits in the
generator every single-bit error of a valid frame is detected, by CRC.VFY and by CRC.VFYX; with one 1 bit
only, exactly the errors in the trailing `g-1` bits are. -/
def Obligations.SingleBitErrorDetection : Prop :=
  ∀ (F : BitSeq) (k : Nat) (f : Fields) (s : State), s.phase = .idle → CrcInputsGood f →
    F.length = f.lena → k < f.lena → seqA f = flipAt F k →
    true ∉ mod2div F f.lena (seqB f) f.lenb →
    (2 ≤ (seqB f).count true →
      exec (.crcVfy f) s = .next { s with
        phase := .done, rsp := ⟨.ok, .none, false, 0, 0, 0, 0⟩ } ∧
      exec (.crcVfyx f) s = .next { s with
        phase := .done, rsp := ⟨.verificationFailed, .none, false, 0, 0, 0, 0⟩ }) ∧
    ((seqB f).count true = 1 →
      exec (.crcVfy f) s = .next { s with
        phase := .done, rsp := ⟨.ok, .none, decide (k ≤ f.lena - f.lenb), 0, 0, 0, 0⟩ })

/-- R112 (the spec marks it as its own inference, `[derived: ...]`): the generators `"1"` and `"1"` followed
by zeros are accepted: the remainder is the trailing `g-1` bits of the dividend unchanged, so a frame
verifies iff they are 0; with `g = 1` every frame verifies and CRC.VFYX returns it whole. -/
def Obligations.DegenerateGenerators : Prop :=
  (∀ (D : BitSeq) (g : Nat), 1 ≤ g → g ≤ D.length →
    mod2div D D.length (true :: zeros (g - 1)) g = D.drop (D.length - g + 1)) ∧
  (∀ (f : Fields) (s : State), s.phase = .idle → CrcInputsGood f → seqB f = true :: zeros (f.lenb - 1) →
    ∃ flag : Bool, exec (.crcVfy f) s = .next { s with
        phase := .done, rsp := ⟨.ok, .none, flag, 0, 0, 0, 0⟩ } ∧
      (flag = true ↔ ∀ k, f.lena - f.lenb < k → k < f.lena → f.seqa.testBit k = false)) ∧
  (∀ (f : Fields) (s : State), s.phase = .idle → f.lenb = 1 → f.seqb.testBit 0 = true → 1 ≤ f.lena →
    exec (.crcDiv f) s = .next { s with phase := .done, rsp := ⟨.ok, .none, false, 0, 0, 0, 0⟩ } ∧
    exec (.crcVfy f) s = .next { s with phase := .done, rsp := ⟨.ok, .none, true, 0, 0, 0, 0⟩ } ∧
    exec (.crcVfyx f) s = .next { s with
      phase := .done, rsp := ⟨.ok, .none, false, 0, f.lena, 0, f.seqa % 2 ^ f.lena⟩ })

/-! ### The Hamming unit -/

/-- R134: HAM.VAL completes on all operands with status OK, and `FLAG` is the exact predicate, the power
built in full; equivalently the payload length is at most `2^r - r - 1`. -/
def Obligations.HamValAnswersPredicate : Prop :=
  ∀ (f : Fields) (s : State), s.phase = .idle →
    exec (.hamVal f) s = .next { s with
      phase := .done
      rsp := ⟨.ok, .none, decide (2 ^ f.y ≥ f.x + f.y + 1), 0, 0, 0, 0⟩ } ∧
    (2 ^ f.y ≥ f.x + f.y + 1 ↔ f.x ≤ 2 ^ f.y - f.y - 1)

/-- The bounded comparison of R14 (the spec's own inference, `[derived: from rule R7]`): for operands of
`IW` bits the sum is below `2^(IW+1)`, so the predicate is true whenever `r >= IW + 1`. -/
def Obligations.WideRedundancyAlwaysSuffices : Prop :=
  ∀ (p : Params) (a r : Nat), a < 2 ^ p.iw → r < 2 ^ p.iw →
    a + r + 1 < 2 ^ (p.iw + 1) ∧ (p.iw + 1 ≤ r → redundancyOk a r = true) ∧
    (redundancyOk a r = true ↔ 2 ^ r ≥ a + r + 1)

/-- R15: `ispow2` picks out 1, 2, 4, 8, ..., and `K(n)` counts them in `[1, n]` and is
`floor(log2(n)) + 1` for `n >= 1`. -/
def Obligations.PowersOfTwoAreCounted : Prop :=
  (∀ q : Nat, isPow2 q = true ↔ ∃ k, q = 2 ^ k) ∧ isPow2 0 = false ∧ parityCount 0 = 0 ∧
  (∀ n : Nat, parityCount n = ((Finset.Icc 1 n).filter fun q => ∃ k ≤ n, q = 2 ^ k).card) ∧
  (∀ n : Nat, 1 ≤ n → parityCount n = Nat.log 2 n + 1)

/-- R131: the parity positions of a block of length `n` are `2^0 .. 2^(K(n)-1)`, all others in `[1, n]`
are payload positions, and of those there are `n - K(n)`. -/
def Obligations.ParityAndPayloadPositions : Prop :=
  ∀ n q : Nat,
    (q ∈ parityPositions n ↔ ∃ j < parityCount n, q = 2 ^ j) ∧
    (q ∈ payloadPositions n ↔ 1 ≤ q ∧ q ≤ n ∧ ¬ ∃ j, q = 2 ^ j) ∧
    (parityPositions n).length = parityCount n ∧
    (payloadPositions n).length = n - parityCount n

/-- R132: bit `j` of the syndrome is the parity of the number of set bits at positions whose own bit `j` is
1, which is the xor of the positions; the syndrome is below `2^K(n)`, and `K(n) <= LW` for every block that
fits the port. -/
def Obligations.SyndromeIsXorOfSetPositions : Prop :=
  ∀ (E : BitSeq) (n : Nat), E.length = n →
    (∀ j, (syndrome E n).testBit j =
      decide (((Finset.Icc 1 n).filter fun q => posAt E q = true ∧ q.testBit j = true).card % 2 = 1)) ∧
    syndrome E n < 2 ^ parityCount n ∧
    (∀ p : Params, n ≤ p.lmax → parityCount n ≤ p.lw)

/-- R136: HAM.DEC completes, and each of its outcomes: the two rejected inputs, no correction, one
correction at the position the syndrome names, and a syndrome outside the block. -/
def Obligations.HamDecAnswersDecode : Prop :=
  ∀ (f : Fields) (s : State), s.phase = .idle →
    (f.lena = f.x → LayoutConsistent f.x f.y →
      (syndrome (seqA f) f.x = 0 →
        exec (.hamDec f) s = .next { s with
          phase := .done, rsp := ⟨.ok, .none, false, 0, f.y, 0, toField (payload (seqA f) f.x)⟩ }) ∧
      (0 < syndrome (seqA f) f.x → syndrome (seqA f) f.x ≤ f.x →
        exec (.hamDec f) s = .next { s with
          phase := .done
          rsp := ⟨.ok, .none, false, 1, f.y, syndrome (seqA f) f.x,
            toField (payload (flipAt (seqA f) (syndrome (seqA f) f.x - 1)) f.x)⟩ }) ∧
      (f.x < syndrome (seqA f) f.x →
        exec (.hamDec f) s = .next { s with
          phase := .done
          rsp := ⟨.uncorrectablePosition, .none, false, 0, 0, syndrome (seqA f) f.x, 0⟩ })) ∧
    (f.lena ≠ f.x → exec (.hamDec f) s = .next { s with
      phase := .done, rsp := ⟨.invalidInput, .lengthMismatch, false, 0, 0, 0, 0⟩ }) ∧
    (f.lena = f.x → ¬ LayoutConsistent f.x f.y → exec (.hamDec f) s = .next { s with
      phase := .done, rsp := ⟨.invalidInput, .layoutMismatch, false, 0, 0, 0, 0⟩ })

/-- R135: the Hamming checks come before any arithmetic, in their order. When one fails, the response is its
cause and no part of a result, whatever the block: only its length and the two sizes matter. Every `m > n`
fails, every `n > LMAX` is a length mismatch, and otherwise layout-consistent means `K(n) = n - m`. -/
def Obligations.FailedHamCheckReadsNoBlockBit : Prop :=
  (∀ f g : Fields, f.lena = g.lena → f.x = g.x → f.y = g.y →
    (f.lena ≠ f.x ∨ ¬ LayoutConsistent f.x f.y) →
    let r : Response :=
      ⟨.invalidInput, if f.lena ≠ f.x then .lengthMismatch else .layoutMismatch, false, 0, 0, 0, 0⟩
    Answers (.hamDec f) r ∧ Answers (.hamDec g) r) ∧
  (∀ n m, n < m → ¬ LayoutConsistent n m) ∧
  (∀ n m, m ≤ n → (LayoutConsistent n m ↔ parityCount n = n - m)) ∧
  (∀ (p : Params) (f : Fields), (Instr.hamDec f).wf p = true → p.lmax < f.x →
    Answers (.hamDec f) ⟨.invalidInput, .lengthMismatch, false, 0, 0, 0, 0⟩)

/-- R137: the payload has `n - K(n)` bits, and the bit at a payload position `q` is its element number
`q - K(q) - 1`: the payload positions in ascending order. -/
def Obligations.PayloadIsNonParityBits : Prop :=
  ∀ (B : BitSeq) (n : Nat),
    (payload B n).length = n - parityCount n ∧
    (∀ q, 1 ≤ q → q ≤ n → isPow2 q = false → bitAt (payload B n) (q - parityCount q - 1) = posAt B q)

/-- R138 (the spec marks it as its own inference, `[derived: ...]`): for layout-consistent sizes each
payload has exactly one code word, whose parity bit at `2^j` is bit `j` of the xor of the payload positions
that hold a 1; it decodes to that payload with no correction. -/
def Obligations.UniqueCodeWordForPayload : Prop :=
  ∀ (n m : Nat) (P : BitSeq), LayoutConsistent n m → P.length = m →
    ∃ C : BitSeq, IsCodeWord C n ∧ payload C n = P ∧
      (∀ C', IsCodeWord C' n → payload C' n = P → C' = C) ∧
      (∀ j < parityCount n, posAt C (2 ^ j) =
        (((payloadPositions n).filter (posAt C)).foldl (· ^^^ ·) 0).testBit j) ∧
      (∀ (f : Fields) (s : State), s.phase = .idle → f.lena = n → f.x = n → f.y = m → seqA f = C →
        exec (.hamDec f) s = .next { s with
          phase := .done, rsp := ⟨.ok, .none, false, 0, m, 0, toField P⟩ })

/-- R139 (the spec marks it as its own inference, `[derived: ...]`): a code word with one bit flipped at any
position `q`, parity positions included, is decoded to its payload, with the correction counted and its
position reported. -/
def Obligations.SingleErrorIsCorrected : Prop :=
  ∀ (n m q : Nat) (C : BitSeq) (f : Fields) (s : State), s.phase = .idle →
    LayoutConsistent n m → IsCodeWord C n → 1 ≤ q → q ≤ n →
    f.lena = n → f.x = n → f.y = m → seqA f = flipAt C (q - 1) →
    syndrome (flipAt C (q - 1)) n = q ∧
    exec (.hamDec f) s = .next { s with
      phase := .done, rsp := ⟨.ok, .none, false, 1, m, q, toField (payload C n)⟩ }

/-- R140 (the spec marks it as its own inference, `[derived: ...]`): a code word with the bits at a set of
positions `Q` flipped, however many, has the xor of `Q` as its syndrome, and HAM.DEC answers accordingly:
with 0, OK and no correction; inside the block, OK and the bit at that position flipped; outside,
UncorrectablePosition. The payload with no correction is wrong exactly where `Q` met a payload position. Two
errors are never taken for none, and their xor is a third position. -/
def Obligations.SeveralErrorsAreNotCorrected : Prop :=
  (∀ (n m : Nat) (C B : BitSeq) (Q : List Nat), IsCodeWord C n → Q.Nodup → (∀ q ∈ Q, 1 ≤ q ∧ q ≤ n) →
    B = Q.foldl (fun B q => flipAt B (q - 1)) C → LayoutConsistent n m →
    let S := Q.foldl (· ^^^ ·) 0
    syndrome B n = S ∧ (∀ q, 1 ≤ q → q ≤ n → posAt B q = Bool.xor (posAt C q) (decide (q ∈ Q))) ∧
    (∀ (f : Fields) (s : State), s.phase = .idle → f.lena = n → f.x = n → f.y = m → seqA f = B →
      (S = 0 → exec (.hamDec f) s = .next { s with
        phase := .done, rsp := ⟨.ok, .none, false, 0, m, 0, toField (payload B n)⟩ }) ∧
      (0 < S → S ≤ n → exec (.hamDec f) s = .next { s with
        phase := .done, rsp := ⟨.ok, .none, false, 1, m, S, toField (payload (flipAt B (S - 1)) n)⟩ }) ∧
      (n < S → exec (.hamDec f) s = .next { s with
        phase := .done, rsp := ⟨.uncorrectablePosition, .none, false, 0, 0, S, 0⟩ }))) ∧
  (∀ (n a b : Nat), 1 ≤ a → a < b → b ≤ n → a ^^^ b ≠ 0 ∧ a ^^^ b ≠ a ∧ a ^^^ b ≠ b)

/-- R141 (the spec marks it as its own inference, `[derived: ...]`): a block whose length plus one is a
power of two is never uncorrectable; for every other length each syndrome from `n+1` to `2^K(n)-1` is
reached by some block. -/
def Obligations.WhenSyndromeLeavesTheBlock : Prop :=
  ∀ n : Nat,
    (∀ E : BitSeq, E.length = n → syndrome E n < 2 ^ parityCount n) ∧
    (n = 2 ^ parityCount n - 1 → ∀ (f : Fields) (s : State), s.phase = .idle → f.x = n →
      ∃ r, exec (.hamDec f) s = .next { s with phase := .done, rsp := r } ∧
        r.status ≠ .uncorrectablePosition) ∧
    (∀ v, n < v → v < 2 ^ parityCount n → ∃ E : BitSeq, E.length = n ∧ syndrome E n = v)

/-- R142 (the spec marks it as its own inference, `[derived: ...]`): layout-consistent sizes satisfy the
redundancy predicate, so that every decode HAM.DEC accepts is of a configuration HAM.VAL calls valid; and
the converse is false: sizes 5 and 1 satisfy the predicate and are rejected. -/
def Obligations.LayoutImpliesRedundancy : Prop :=
  (∀ n m : Nat, LayoutConsistent n m → 2 ^ (n - m) ≥ m + (n - m) + 1 ∧ redundancyOk m (n - m) = true) ∧
  (∀ (f : Fields) (r : Response), Answers (.hamDec f) r → r.status ≠ .invalidInput →
    ∀ v : Fields, v.x = f.y → v.y = f.x - f.y →
      Answers (.hamVal v) ⟨.ok, .none, true, 0, 0, 0, 0⟩) ∧
  (redundancyOk 1 4 = true ∧ ¬ LayoutConsistent 5 1 ∧ LayoutConsistent 5 2)

/-- R208 (the spec marks it as its own inference, `[derived: ...]`): a decode with sizes for which the
redundancy predicate is false answers InvalidInput, LENGTH_MISMATCH or LAYOUT_MISMATCH, and carries no
payload. -/
def Obligations.InvalidConfigurationIsNeverDecoded : Prop :=
  ∀ (f : Fields) (s : State), s.phase = .idle → ¬ (2 ^ (f.x - f.y) ≥ f.y + (f.x - f.y) + 1) →
    exec (.hamDec f) s = .next { s with
      phase := .done, rsp := ⟨.invalidInput, .lengthMismatch, false, 0, 0, 0, 0⟩ } ∨
    exec (.hamDec f) s = .next { s with
      phase := .done, rsp := ⟨.invalidInput, .layoutMismatch, false, 0, 0, 0, 0⟩ }

/-! ### Responses of all commands -/

/-- R75: a reserved opcode completes with InvalidInput/ILLEGAL_OP and every other field 0, whatever the
other fields of the command; and after TAKE it leaves no trace: but for the unspecified `RSP` and the
host's own record (log 4, log 5), of which nothing is said, the machine is as before. -/
def Obligations.ReservedOpcodesAnswerIllegalOp : Prop :=
  ∀ op ∈ [Instr.reserved0, Instr.reserved6, Instr.reserved7], ∀ (f : Fields) (s : State),
    s.phase = .idle →
    ∃ t, exec (op f) s = .next t ∧
      t = { s with phase := .done, rsp := ⟨.invalidInput, .illegalOp, false, 0, 0, 0, 0⟩ } ∧
      t.takeRsp = { s with
        rsp := t.takeRsp.rsp
        freeCount := t.takeRsp.freeCount
        inFlight := t.takeRsp.inFlight
        delivered := t.takeRsp.delivered }

/-- R171: every cause of an error, and no other: each kind and detail is answered exactly under its
condition, so that one cause is reported when several apply, and ConfigurationInvalid is never answered. -/
def Obligations.EveryCauseOfAnError : Prop :=
  ∀ (i : Instr) (r : Response), Answers i r →
    let f := i.fields
    let crc := i.opcode = 1 ∨ i.opcode = 2 ∨ i.opcode = 3
    (r.status = .invalidInput ∧ r.detail = .illegalOp ↔
      i.opcode = 0 ∨ i.opcode = 6 ∨ i.opcode = 7) ∧
    (r.status = .invalidInput ∧ r.detail = .badGenerator ↔
      crc ∧ (f.lenb = 0 ∨ f.seqb.testBit 0 = false)) ∧
    (r.status = .invalidInput ∧ r.detail = .frameShort ↔
      crc ∧ f.lenb ≠ 0 ∧ f.seqb.testBit 0 = true ∧ f.lena < f.lenb) ∧
    (r.status = .invalidInput ∧ r.detail = .lengthMismatch ↔ i.opcode = 5 ∧ f.lena ≠ f.x) ∧
    (r.status = .invalidInput ∧ r.detail = .layoutMismatch ↔
      i.opcode = 5 ∧ f.lena = f.x ∧ f.y ≠ f.x - parityCount f.x) ∧
    (r.status = .verificationFailed ↔ i.opcode = 3 ∧ CrcInputsGood f ∧
      true ∈ mod2div (seqA f) f.lena (seqB f) f.lenb) ∧
    (r.status = .uncorrectablePosition ↔ i.opcode = 5 ∧ f.lena = f.x ∧ f.y = f.x - parityCount f.x ∧
      f.x < syndrome (seqA f) f.x) ∧
    (r.status = .uncorrectablePosition → r.synd = syndrome (seqA f) f.x) ∧
    (r.status = .invalidInput ↔ r.detail ≠ .none) ∧
    r.status ≠ .configurationInvalid

/-- R176: an error response carries its kind, its detail for InvalidInput only, the syndrome for
UncorrectablePosition only, and no result; ISSUE completes as for any command, and nothing else changes. -/
def Obligations.ErrorResponseCarriesNoResult : Prop :=
  ∀ (i : Instr) (s t : State), s.phase = .idle → exec i s = .next t →
    t = { s with phase := .done, rsp := t.rsp } ∧
    (t.rsp.status ≠ .ok →
      t.rsp.flag = false ∧ t.rsp.ccnt = 0 ∧ t.rsp.olen = 0 ∧ t.rsp.obits = 0 ∧
      (t.rsp.status ≠ .invalidInput → t.rsp.detail = .none) ∧
      (t.rsp.status ≠ .uncorrectablePosition → t.rsp.synd = 0) ∧
      (t.rsp.status = .uncorrectablePosition → t.rsp.synd = syndrome (seqA i.fields) i.fields.x))

/-- A response field an operation does not define is 0 (R76, R79): `FLAG` is set by CRC.VFY and HAM.VAL
only, `CCNT` and `SYND` by HAM.DEC only, and a result sequence is answered by CRC.DIV, CRC.VFYX and
HAM.DEC only; a correction is counted exactly when a decode ends OK with a syndrome. -/
def Obligations.UndefinedResponseFieldsAreZero : Prop :=
  ∀ (i : Instr) (r : Response), Answers i r →
    (r.flag = true → i.opcode = 2 ∨ i.opcode = 4) ∧
    (r.ccnt ≠ 0 ∨ r.synd ≠ 0 → i.opcode = 5) ∧
    (r.olen ≠ 0 ∨ r.obits ≠ 0 → i.opcode = 1 ∨ i.opcode = 3 ∨ i.opcode = 5) ∧
    (r.ccnt = 1 ↔ r.status = .ok ∧ r.synd ≠ 0)

/-- R74: for every operation two commands that differ only in ignored fields and bits have equal
responses. -/
def Obligations.IgnoredBitsHaveNoEffect : Prop :=
  ∀ (i i' : Instr) (r : Response), AgreeOnRead i i' → Answers i r → Answers i' r

/-- R32: the response is a function of the command record alone: every command has one response, given from
every state in which the port accepts, whatever came before and whatever the widths. -/
def Obligations.ResponseDependsOnCommandAlone : Prop :=
  ∀ i : Instr, ∃ r : Response, Answers i r ∧
    (∀ (s t : State), s.phase = .idle → exec i s = .next t → t.rsp = r) ∧
    (∀ r' : Response, Answers i r' → r' = r)

/-- The response to a command of the port fits the response word, and bits of `OBITS` from `OLEN` up are 0
(R76, R53). -/
def Obligations.ResponseFitsItsWord : Prop :=
  ∀ (p : Params) (i : Instr) (r : Response), i.wf p = true → Answers i r →
    r.wf p = true ∧ r.obits < 2 ^ r.olen

/-- Frame of every command: `PHASE` and `RSP` apart nothing changes, the command at the port, what the host
asks for next, what it has taken and the widths among it; while a response waits nothing changes at all
(that `exec` of a held command completes there is the model's reading, log 10). -/
def Obligations.CommandsChangeOnlyPhaseAndResponse : Prop :=
  ∀ (i : Instr) (s : State),
    ∃ t, exec i s = .next t ∧ t.params = s.params ∧ t.cmds = s.cmds ∧ t.sched = s.sched ∧
      t.inFlight = s.inFlight ∧ t.delivered = s.delivered ∧ t.freeCount = s.freeCount ∧
      t.phase = .done ∧ (s.phase = .done → t = s)

/-! ### Transitions and runs -/

/-- A step runs the decoded command: when the host asks for ISSUE, the port is free and the word on it
decodes to `i`, the step is `exec i`, the word leaving the port and the host noting the command (log 3, log
5). -/
def Obligations.StepRunsTheDecodedCommand : Prop :=
  ∀ (s : State) (w : Nat) (ws : List Nat) (ss : List HostStep) (i : Instr),
    s.phase = .idle → s.cmds = w :: ws → s.sched = .issue :: ss → decode s.params w = .ok i →
    step s = exec i { s with cmds := ws, sched := ss, inFlight := some i }

/-- R29: ISSUE completes in one step from IDLE, leaving the response in `RSP` and the phase DONE; while the
phase is DONE the command on the port is neither lost nor executed, and nothing of CORE changes; and at an
IDLE port with no command presented nothing of CORE changes. (That the host's requests stand in a list, that
one not granted is used up, and the note of the command are the model's: log 3, log 11, log 5.) -/
def Obligations.IssueWaitsForIdle : Prop :=
  ∀ (s : State) (ss : List HostStep), s.sched = .issue :: ss →
    (∀ (w : Nat) (ws : List Nat) (i : Instr), s.phase = .idle → s.cmds = w :: ws →
      decode s.params w = .ok i →
      ∃ r, Answers i r ∧ step s = .next { s with
        phase := .done, rsp := r, cmds := ws, sched := ss, inFlight := some i }) ∧
    (s.phase = .done → step s = .next { s with sched := ss }) ∧
    (s.phase = .idle → s.cmds = [] → step s = .next { s with sched := ss })

/-- R30: TAKE delivers the response that waits, with its command, once, and makes the port free; with no
response waiting it delivers nothing and changes nothing. Until it is taken the response is stable. What
`RSP` holds afterwards is not said. (The list of deliveries, the note of the command and the list of
requests are the model's: log 3, log 5, log 11.) -/
def Obligations.TakeDeliversTheResponse : Prop :=
  ∀ (s : State) (ss : List HostStep), s.sched = .take :: ss →
    (s.phase = .done → ∃ t, step s = .next t ∧ t.phase = .idle ∧
      t.delivered = s.delivered ++ [⟨s.inFlight, s.rsp⟩] ∧ t.inFlight = none ∧
      t.params = s.params ∧ t.cmds = s.cmds ∧ t.sched = ss) ∧
    (s.phase = .idle → step s = .next { s with sched := ss }) ∧
    (∀ u v : State, step u = .next v → u.phase = .done → v.phase = .done → v.rsp = u.rsp)

/-- R31: RESET is taken in every state; it makes the port free and discards a response not yet taken, which
is never delivered; the commands the host still presents and the widths are not touched. (The lists and
the note of the command are the model's: log 3, log 5.) -/
def Obligations.ResetDiscardsTheResponse : Prop :=
  ∀ (s : State) (ss : List HostStep), s.sched = .reset :: ss →
    ∃ t, step s = .next t ∧ t.phase = .idle ∧ t.inFlight = none ∧ t.delivered = s.delivered ∧
      t.params = s.params ∧ t.cmds = s.cmds ∧ t.sched = ss

/-- R33: after reset the phase is IDLE and the command port accepts at once: the first command presented is
run by the very next step. (For the recommended widths, log 2; how the command is presented and
the note of it are the model's, log 3, log 5.) -/
def Obligations.ResetStateAcceptsACommand : Prop :=
  State.reset.phase = .idle ∧ State.reset.quiescent = true ∧
  ∀ (nbits w : Nat) (i : Instr), decodeTableWord nbits w = some i →
    ∃ r t, Answers i r ∧ step (State.reset.withFetchWord nbits w) = .next t ∧ t.phase = .done ∧
      t.rsp = r ∧ t.inFlight = some i ∧ t.cmds = [] ∧ t.sched = []

/-- Nothing happens in CORE except as the direct effect of ISSUE, TAKE or RESET (R181): with nothing asked
for a step changes nothing; the phase leaves IDLE by ISSUE only and leaves DONE by TAKE or RESET only; and
while it stays DONE the response is stable. (The list of requests and the note are the model's: log 3,
log 5.) -/
def Obligations.OnlyTransitionsChangeCore : Prop :=
  ∀ s t : State, step s = .next t →
    (s.sched = [] → t = s) ∧
    (s.phase = .idle → t.phase = .done → s.sched.head? = some .issue) ∧
    (s.phase = .done → t.phase = .idle → s.sched.head? = some .take ∨ s.sched.head? = some .reset) ∧
    (s.phase = .done → t.phase = .done → t.rsp = s.rsp ∧ t.inFlight = s.inFlight)

/-- No step changes the widths, takes back a delivery, delivers more than one response, or takes from the
port anything but its first command. (The lists are the model's: log 3, log 5.) -/
def Obligations.StepFrame : Prop :=
  ∀ s t : State, step s = .next t →
    t.params = s.params ∧ t.sched = s.sched.tail ∧
    (t.cmds = s.cmds ∨ (s.phase = .idle ∧ t.phase = .done ∧ t.cmds = s.cmds.tail)) ∧
    (t.delivered = s.delivered ∨
      (s.phase = .done ∧ t.phase = .idle ∧ t.delivered = s.delivered ++ [⟨s.inFlight, s.rsp⟩]))

/-- R178: no operation hangs or fails to respond. Every step completes, but for a number at the port that is
no command word (the model's refusal, log 6); and every command accepted leaves a response waiting. -/
def Obligations.EveryCommandGetsAResponse : Prop :=
  (∀ s : State, (∃ t, step s = .next t) ∨
    (step s = .refused .notACommandWord ∧ s.phase = .idle ∧ s.sched.head? = some .issue ∧
      ∃ w ws, s.cmds = w :: ws ∧
        2 ^ (3 + 2 * s.params.lw + 2 * s.params.iw + 2 * s.params.lmax) ≤ w)) ∧
  (∀ (i : Instr) (s : State), s.phase = .idle → ∃ t, exec i s = .next t ∧ t.phase = .done)

/-- The invariant of every run holds right after reset. (It speaks of the host's record, the model's own,
log 5, and `State.reset` has the recommended widths, log 2.) -/
def Obligations.InvariantHoldsAtReset : Prop := State.reset.Inv

/-- Every step keeps the invariant: the response that waits and every response delivered is the one its own
command determines, and that command was one of the port's (R58, R214). (The pairs are the model's record
of a run, log 5.) -/
def Obligations.StepKeepsTheInvariant : Prop :=
  ∀ s t : State, s.Inv → step s = .next t → t.Inv

/-- R206: a command presented while a response waits is held: after the TAKE it is accepted and answered,
and the earlier response was delivered, not overwritten. (The lists are the model's: log 3, log 5.) -/
def Obligations.HeldCommandIsNotLost : Prop :=
  ∀ (s : State) (w : Nat) (ws : List Nat) (ss : List HostStep) (i : Instr),
    s.phase = .done → s.cmds = w :: ws → s.sched = .issue :: .take :: .issue :: ss →
    decode s.params w = .ok i →
    ∃ t₁ t₂ t₃ r, step s = .next t₁ ∧ step t₁ = .next t₂ ∧ step t₂ = .next t₃ ∧
      t₁.cmds = w :: ws ∧ t₁.rsp = s.rsp ∧ t₂.cmds = w :: ws ∧
      Answers i r ∧ t₃.phase = .done ∧ t₃.rsp = r ∧ t₃.inFlight = some i ∧ t₃.cmds = ws ∧
      t₃.delivered = s.delivered ++ [⟨s.inFlight, s.rsp⟩]

/-- R202: a response lost to RESET is never delivered, and the same command issued again gets the same
response. (The lists are the model's: log 3, log 5.) -/
def Obligations.ReissueAfterResetGivesTheSameResponse : Prop :=
  ∀ (s : State) (w : Nat) (ws : List Nat) (ss : List HostStep) (i : Instr),
    s.phase = .idle → s.cmds = w :: w :: ws → s.sched = .issue :: .reset :: .issue :: ss →
    decode s.params w = .ok i →
    ∃ t₁ t₂ t₃, step s = .next t₁ ∧ step t₁ = .next t₂ ∧ step t₂ = .next t₃ ∧
      t₁.phase = .done ∧ t₂.phase = .idle ∧ t₃.phase = .done ∧ t₃.rsp = t₁.rsp ∧
      t₂.delivered = s.delivered ∧ t₃.delivered = s.delivered

/-- R179: an error leaves no trace. Two states that differ only in the response that waits and in the command
noted with it, an OK response in one and an error in the other, agree after TAKE on everything but what was
delivered and the unspecified `RSP`, and the next command gets the same response in both. It holds of any
noted command `c`, so of every two such states of runs, where `c` is the command of the error `e`. (The note
and the list of deliveries are the model's, log 5.) -/
def Obligations.TakenErrorLeavesNoTrace : Prop :=
  ∀ (s t t' : State) (ss : List HostStep) (e : Response) (c : Option Instr),
    s.phase = .done → s.sched = .take :: ss → s.rsp.status = .ok → e.status ≠ .ok →
    step s = .next t → step { s with rsp := e, inFlight := c } = .next t' →
    t' = { t with rsp := t'.rsp, delivered := t'.delivered } ∧ t.phase = .idle ∧
    (∀ (i : Instr), ∃ r u u', exec i t = .next u ∧ exec i t' = .next u' ∧ u.rsp = r ∧ u'.rsp = r ∧
      Answers i r)

/-- R78: the numeric codes of `STATUS` and `DETAIL`, in both directions; the reserved codes spell nothing
(that the types do not hold them is the model's reading, log 8). -/
def Obligations.ResponseCodeValues : Prop :=
  (statusCode .ok = 0 ∧ statusCode .invalidInput = 1 ∧ statusCode .verificationFailed = 2 ∧
    statusCode .uncorrectablePosition = 3 ∧ statusCode .configurationInvalid = 4) ∧
  (detailCode .none = 0 ∧ detailCode .illegalOp = 1 ∧ detailCode .badGenerator = 2 ∧
    detailCode .frameShort = 3 ∧ detailCode .lengthMismatch = 4 ∧ detailCode .layoutMismatch = 5) ∧
  (∀ c st, statusOfCode c = some st ↔ statusCode st = c) ∧
  (∀ c d, detailOfCode c = some d ↔ detailCode d = c) ∧
  (∀ c, 5 ≤ c → statusOfCode c = none) ∧ (∀ c, 6 ≤ c → detailOfCode c = none)

/-- R214: CORE never stops. However the host chooses its transitions, at each step and in view of the state
it finds, as long as each is enabled there is a run that follows its choices, infinite when it always has a
next one; and a run is determined by its first state and the choices. (Presenting a choice by the lists of
State is the model's, log 3.) -/
def Obligations.EveryHostChoiceIsARun : Prop :=
  (∀ (choose : Nat → State → Option Move) (s : State),
    (∀ n t m, choose n t = some m → m.enabled t) →
    (∀ n t, choose n t = none → choose (n + 1) t = none) →
    ∃ σ, σ 0 = s ∧ IsRun (fun n => choose n (σ n)) σ) ∧
  (∀ (h : Nat → Option Move) (σ τ : Nat → State), IsRun h σ → IsRun h τ → σ 0 = τ 0 → ∀ n, σ n = τ n)

/-- R214: what a run can say. In every run, finite or infinite, from a quiescent state, each TAKE delivers
the pair of the command issued by the transition just before it and that command's response, and nothing
else is ever delivered. (The list of the pairs is the model's record, log 5.) -/
def Obligations.RunDeliversPairs : Prop :=
  ∀ (h : Nat → Option Move) (σ : Nat → State), IsRun h σ → (σ 0).quiescent = true → ∀ n,
    (h n = some .take → ∃ k w i r, n = k + 1 ∧ h k = some (.issue w) ∧
      decode (σ 0).params w = .ok i ∧ Answers i r ∧
      (σ (n + 1)).delivered = (σ n).delivered ++ [⟨some i, r⟩]) ∧
    (h n ≠ some .take → (σ (n + 1)).delivered = (σ n).delivered)
end

