-- ==== Sys2Proof/Laws/Bits.lean ====
section
/-! SUPPORT. Bit sequences and the fields that carry them: lengths, elements, and the two directions of
spec 20_memory.md R53. -/

namespace Sys2Proof.Machine

@[simp] theorem bitAt_cons_zero (b : Bool) (S : BitSeq) : bitAt (b :: S) 0 = b := rfl

@[simp] theorem bitAt_cons_succ (b : Bool) (S : BitSeq) (i : Nat) : bitAt (b :: S) (i + 1) = bitAt S i := rfl

theorem bitAt_eq_getElem {S : BitSeq} {i : Nat} (h : i < S.length) : bitAt S i = S[i] := by
  simp [bitAt, h]

theorem bitAt_of_length_le {S : BitSeq} {i : Nat} (h : S.length ≤ i) : bitAt S i = false := by
  simp [bitAt, h]

/-- Two sequences of one length with the same elements are equal. -/
theorem ext_bitAt {S T : BitSeq} (hl : S.length = T.length) (h : ∀ i < S.length, bitAt S i = bitAt T i) :
    S = T := by
  refine List.ext_getElem hl fun i h₁ h₂ => ?_
  simpa [bitAt_eq_getElem h₁, bitAt_eq_getElem h₂] using h i h₁

@[simp] theorem length_ofField (len : Nat) (v : Nat) : (ofField len v).length = len := by
  simp [ofField]

theorem bitAt_ofField (len : Nat) (v : Nat) (i : Nat) :
    bitAt (ofField len v) i = (decide (i < len) && v.testBit i) := by
  by_cases h : i < len <;> simp [bitAt, ofField, h]

@[simp] theorem length_zeros (k : Nat) : (zeros k).length = k := by simp [zeros]

@[simp] theorem bitAt_zeros (k i : Nat) : bitAt (zeros k) i = false := by
  by_cases h : i < k <;> simp [bitAt, zeros, h]

@[simp] theorem length_xorSeq (S T : BitSeq) : (xorSeq S T).length = min S.length T.length := by
  simp [xorSeq]

theorem bitAt_xorSeq {S T : BitSeq} (h : S.length = T.length) (i : Nat) :
    bitAt (xorSeq S T) i = Bool.xor (bitAt S i) (bitAt T i) := by
  by_cases hi : i < S.length
  · simp [bitAt, xorSeq, hi, h ▸ hi]
  · simp [bitAt, xorSeq, hi, h ▸ hi]

@[simp] theorem length_flipAt (S : BitSeq) (i : Nat) : (flipAt S i).length = S.length := by simp [flipAt]

theorem bitAt_flipAt {S : BitSeq} {i : Nat} (hi : i < S.length) (k : Nat) :
    bitAt (flipAt S i) k = Bool.xor (bitAt S k) (decide (i = k)) := by
  by_cases hk : k < S.length
  · rw [bitAt_eq_getElem (by simpa using hk), bitAt_eq_getElem hk]
    by_cases h : i = k <;> simp [flipAt, h]
  · have : i ≠ k := by omega
    simp [bitAt_of_length_le (not_lt.mp hk), bitAt_of_length_le (S := flipAt S i) (by simpa using hk), this]

@[simp] theorem toField_nil : toField [] = 0 := rfl

@[simp] theorem toField_cons (b : Bool) (S : BitSeq) : toField (b :: S) = b.toNat + 2 * toField S := rfl

theorem toField_lt (S : BitSeq) : toField S < 2 ^ S.length := by
  induction S with
  | nil => simp
  | cons b S ih =>
    have := Bool.toNat_lt b
    have : toField S + 1 ≤ 2 ^ S.length := ih
    rw [toField_cons, List.length_cons, Nat.pow_succ]
    generalize 2 ^ S.length = P at this ⊢
    omega

theorem testBit_toField (S : BitSeq) (i : Nat) : (toField S).testBit i = bitAt S i := by
  induction S generalizing i with
  | nil => simp [bitAt]
  | cons b S ih =>
    cases i with
    | zero => cases b <;> simp [Nat.testBit_zero]
    | succ i =>
      have := Bool.toNat_lt b
      rw [Nat.testBit_succ, bitAt_cons_succ, ← ih i, toField_cons]
      congr 1
      omega

theorem toField_ofField (len : Nat) (v : Nat) : toField (ofField len v) = v % 2 ^ len := by
  refine Nat.eq_of_testBit_eq fun i => ?_
  rw [testBit_toField, bitAt_ofField, Nat.testBit_mod_two_pow]

theorem toField_take (len k : Nat) (v : Nat) (h : k ≤ len) :
    toField ((ofField len v).take k) = v % 2 ^ k := by
  have : (ofField len v).take k = ofField k v := by
    simp [ofField, ← List.map_take, List.take_range, h]
  rw [this, toField_ofField]

/-- A field's value matters only below the length. -/
theorem ofField_congr {len : Nat} {v w : Nat} (h : ∀ k < len, v.testBit k = w.testBit k) :
    ofField len v = ofField len w := by
  refine ext_bitAt (by simp) fun i hi => ?_
  simp only [length_ofField] at hi
  simp [bitAt_ofField, hi, h i hi]

end Sys2Proof.Machine
end

