-- ==== Sys2Proof/Laws/State.lean ====
section
/-! SUPPORT. What each update of the state does to each field, once, so that no proof unfolds a record
update. -/

namespace Sys2Proof.Machine.State

/-! ### `holdResponse` -/

@[simp] theorem holdResponse_params (s : State) (r : Response) : (s.holdResponse r).params = s.params := rfl
@[simp] theorem holdResponse_phase (s : State) (r : Response) : (s.holdResponse r).phase = .done := rfl
@[simp] theorem holdResponse_rsp (s : State) (r : Response) : (s.holdResponse r).rsp = r := rfl
@[simp] theorem holdResponse_cmds (s : State) (r : Response) : (s.holdResponse r).cmds = s.cmds := rfl
@[simp] theorem holdResponse_sched (s : State) (r : Response) : (s.holdResponse r).sched = s.sched := rfl
@[simp] theorem holdResponse_inFlight (s : State) (r : Response) : (s.holdResponse r).inFlight = s.inFlight := rfl
@[simp] theorem holdResponse_delivered (s : State) (r : Response) : (s.holdResponse r).delivered = s.delivered := rfl
@[simp] theorem holdResponse_freeCount (s : State) (r : Response) : (s.holdResponse r).freeCount = s.freeCount := rfl

/-! ### `popSched` -/

@[simp] theorem popSched_params (s : State) : s.popSched.params = s.params := rfl
@[simp] theorem popSched_phase (s : State) : s.popSched.phase = s.phase := rfl
@[simp] theorem popSched_rsp (s : State) : s.popSched.rsp = s.rsp := rfl
@[simp] theorem popSched_cmds (s : State) : s.popSched.cmds = s.cmds := rfl
@[simp] theorem popSched_sched (s : State) : s.popSched.sched = s.sched.tail := rfl
@[simp] theorem popSched_inFlight (s : State) : s.popSched.inFlight = s.inFlight := rfl
@[simp] theorem popSched_delivered (s : State) : s.popSched.delivered = s.delivered := rfl
@[simp] theorem popSched_freeCount (s : State) : s.popSched.freeCount = s.freeCount := rfl

/-! ### `accept` -/

@[simp] theorem accept_params (s : State) (i : Instr) : (s.accept i).params = s.params := rfl
@[simp] theorem accept_phase (s : State) (i : Instr) : (s.accept i).phase = s.phase := rfl
@[simp] theorem accept_rsp (s : State) (i : Instr) : (s.accept i).rsp = s.rsp := rfl
@[simp] theorem accept_cmds (s : State) (i : Instr) : (s.accept i).cmds = s.cmds.tail := rfl
@[simp] theorem accept_sched (s : State) (i : Instr) : (s.accept i).sched = s.sched := rfl
@[simp] theorem accept_inFlight (s : State) (i : Instr) : (s.accept i).inFlight = some i := rfl
@[simp] theorem accept_delivered (s : State) (i : Instr) : (s.accept i).delivered = s.delivered := rfl
@[simp] theorem accept_freeCount (s : State) (i : Instr) : (s.accept i).freeCount = s.freeCount := rfl

/-! ### `forgetRsp` -/

@[simp] theorem forgetRsp_params (s : State) : s.forgetRsp.params = s.params := rfl
@[simp] theorem forgetRsp_phase (s : State) : s.forgetRsp.phase = s.phase := rfl
@[simp] theorem forgetRsp_rsp (s : State) : s.forgetRsp.rsp = Config.freeRsp s.freeCount := rfl
@[simp] theorem forgetRsp_cmds (s : State) : s.forgetRsp.cmds = s.cmds := rfl
@[simp] theorem forgetRsp_sched (s : State) : s.forgetRsp.sched = s.sched := rfl
@[simp] theorem forgetRsp_inFlight (s : State) : s.forgetRsp.inFlight = s.inFlight := rfl
@[simp] theorem forgetRsp_delivered (s : State) : s.forgetRsp.delivered = s.delivered := rfl
@[simp] theorem forgetRsp_freeCount (s : State) : s.forgetRsp.freeCount = s.freeCount + 1 := rfl

/-! ### `resetCore` -/

@[simp] theorem resetCore_params (s : State) : s.resetCore.params = s.params := rfl
@[simp] theorem resetCore_phase (s : State) : s.resetCore.phase = .idle := rfl
@[simp] theorem resetCore_rsp (s : State) : s.resetCore.rsp = Config.freeRsp s.freeCount := rfl
@[simp] theorem resetCore_cmds (s : State) : s.resetCore.cmds = s.cmds := rfl
@[simp] theorem resetCore_sched (s : State) : s.resetCore.sched = s.sched := rfl
@[simp] theorem resetCore_inFlight (s : State) : s.resetCore.inFlight = none := rfl
@[simp] theorem resetCore_delivered (s : State) : s.resetCore.delivered = s.delivered := rfl
@[simp] theorem resetCore_freeCount (s : State) : s.resetCore.freeCount = s.freeCount + 1 := rfl

/-! ### `present` -/

@[simp] theorem present_params (s : State) (w : Nat) : (s.present w).params = s.params := rfl
@[simp] theorem present_phase (s : State) (w : Nat) : (s.present w).phase = .idle := rfl
@[simp] theorem present_rsp (s : State) (w : Nat) : (s.present w).rsp = s.rsp := rfl
@[simp] theorem present_cmds (s : State) (w : Nat) : (s.present w).cmds = w :: s.cmds := rfl
@[simp] theorem present_sched (s : State) (w : Nat) : (s.present w).sched = .issue :: s.sched := rfl
@[simp] theorem present_inFlight (s : State) (w : Nat) : (s.present w).inFlight = none := rfl
@[simp] theorem present_delivered (s : State) (w : Nat) : (s.present w).delivered = s.delivered := rfl
@[simp] theorem present_freeCount (s : State) (w : Nat) : (s.present w).freeCount = s.freeCount := rfl

/-! ### `takeRsp`, which depends on the phase -/

theorem takeRsp_idle {s : State} (h : s.phase = .idle) : s.takeRsp = s := by
  simp [takeRsp, h]

theorem takeRsp_done {s : State} (h : s.phase = .done) :
    s.takeRsp = { s.forgetRsp with
      phase := .idle, inFlight := none, delivered := s.delivered ++ [⟨s.inFlight, s.rsp⟩] } := by
  simp [takeRsp, h]

@[simp] theorem takeRsp_phase (s : State) : s.takeRsp.phase = .idle := by
  cases h : s.phase <;> simp [takeRsp, h]

@[simp] theorem takeRsp_params (s : State) : s.takeRsp.params = s.params := by
  cases h : s.phase <;> simp [takeRsp, h]

@[simp] theorem takeRsp_cmds (s : State) : s.takeRsp.cmds = s.cmds := by
  cases h : s.phase <;> simp [takeRsp, h]

@[simp] theorem takeRsp_sched (s : State) : s.takeRsp.sched = s.sched := by
  cases h : s.phase <;> simp [takeRsp, h]

end Sys2Proof.Machine.State
end

