-- ==== Sys2Proof/Laws/Ops.lean ====
section
/-! SUPPORT. What the shared operations of Machine/Ops.lean and Machine/Flags.lean can do, once each. -/

namespace Sys2Proof.Machine

theorem issue_idle {s : State} (h : s.phase = .idle) (r : Response) :
    issue r s = .next { s with phase := .done, rsp := r } := by
  simp [issue, h, State.holdResponse]

theorem issue_done {s : State} (h : s.phase = .done) (r : Response) : issue r s = .next s := by
  simp [issue, h]

/-- Everything an ISSUE can do: it completes, always with the phase DONE, and it either holds the response
or, when one waits already, changes nothing. -/
theorem issue_cases (r : Response) (s : State) :
    (s.phase = .idle ∧ issue r s = .next { s with phase := .done, rsp := r }) ∨
    (s.phase = .done ∧ issue r s = .next s) := by
  cases h : s.phase
  · exact .inl ⟨rfl, issue_idle h r⟩
  · exact .inr ⟨rfl, issue_done h r⟩

/-- Everything the command port can do. -/
theorem portCommand_cases (s : State) :
    (s.phase = .done ∧ portCommand s = none) ∨
    (s.phase = .idle ∧ s.cmds = [] ∧ portCommand s = none) ∨
    (∃ w ws, s.phase = .idle ∧ s.cmds = w :: ws ∧ portCommand s = some (decode s.params w)) := by
  cases hp : s.phase <;> cases hc : s.cmds <;> simp [portCommand, hp, hc]

@[simp] theorem blankResponse_eq : blankResponse = ⟨.ok, .none, false, 0, 0, 0, 0⟩ := rfl

@[simp] theorem raise_invalidInput (d : Detail) (v : Nat) :
    raise .invalidInput d v = ⟨.invalidInput, d, false, 0, 0, 0, 0⟩ := rfl

@[simp] theorem raise_verificationFailed (d : Detail) (v : Nat) :
    raise .verificationFailed d v = ⟨.verificationFailed, .none, false, 0, 0, 0, 0⟩ := rfl

@[simp] theorem raise_uncorrectablePosition (d : Detail) (v : Nat) :
    raise .uncorrectablePosition d v = ⟨.uncorrectablePosition, .none, false, 0, 0, v, 0⟩ := rfl

/-- Every element is 0 iff no element is 1. -/
theorem allZero_iff (S : BitSeq) : allZero S = true ↔ true ∉ S := by
  induction S with
  | nil => decide
  | cons b S ih => cases b <;> simp_all [allZero]

theorem allZero_eq_false_iff (S : BitSeq) : allZero S = false ↔ true ∈ S := by
  rw [← Bool.not_eq_true, allZero_iff, not_not]

/-- The predicate without the wide power is the predicate with it (00_scope.md R14). -/
theorem redundancyOk_iff (a r : Nat) : redundancyOk a r = true ↔ a + r + 1 ≤ 2 ^ r := by
  rw [redundancyOk, beq_iff_eq, Nat.shiftRight_eq_div_pow, Nat.div_eq_zero_iff]
  have := Nat.two_pow_pos r
  omega

@[simp] theorem correctedCount_zero : correctedCount 0 = 0 := rfl

theorem correctedCount_pos {v : Nat} (h : v ≠ 0) : correctedCount v = 1 := by simp [correctedCount, h]

end Sys2Proof.Machine
end

