-- ==== Sys2Proof/Laws/Crc.lean ====
section
/-! SUPPORT. The CRC unit: the checks, and the lengths and elements of the working copy. -/

namespace Sys2Proof.Machine

@[simp] theorem bitAt_crcGen_zero (f : Fields) (h : f.lenb ≠ 0) :
    bitAt (crcGen f) 0 = f.seqb.testBit 0 := by
  simp [crcGen, seqB, bitAt_ofField, Nat.pos_of_ne_zero h]

/-- Everything the shared part of the CRC operations can do (40_crc.md R102). -/
theorem crcOp_cases (f : Fields) (answer : BitSeq → Response) :
    ((f.lenb = 0 ∨ f.seqb.testBit 0 = false) ∧
      crcOp f answer = ⟨.invalidInput, .badGenerator, false, 0, 0, 0, 0⟩) ∨
    (f.lenb ≠ 0 ∧ f.seqb.testBit 0 = true ∧ f.lena < f.lenb ∧
      crcOp f answer = ⟨.invalidInput, .frameShort, false, 0, 0, 0, 0⟩) ∨
    (f.lenb ≠ 0 ∧ f.seqb.testBit 0 = true ∧ f.lenb ≤ f.lena ∧
      crcOp f answer = answer (mod2div (seqA f) f.lena (seqB f) f.lenb)) := by
  by_cases h₀ : f.lenb = 0
  · exact .inl ⟨.inl h₀, by simp [crcOp, crcCheck, crcGenLen, h₀]⟩
  · cases h₁ : f.seqb.testBit 0
    · exact .inl ⟨.inr rfl, by simp [crcOp, crcCheck, crcGenLen, h₀, h₁]⟩
    · by_cases h₂ : f.lena < f.lenb
      · exact .inr (.inl ⟨h₀, rfl, h₂, by
          simp [crcOp, crcCheck, crcGenLen, crcFrameLen, h₀, h₁, h₂]⟩)
      · exact .inr (.inr ⟨h₀, rfl, not_lt.mp h₂, by
          have hG : bitAt (seqB f) 0 = true := (bitAt_crcGen_zero f h₀).trans h₁
          simp [crcOp, crcCheck, crcGenLen, crcFrameLen, hG, h₀, h₂, crcFrame, crcGen]⟩)

/-- Everything CRC.DIV can answer (40_crc.md R104). -/
theorem crcDiv_cases (f : Fields) :
    ((f.lenb = 0 ∨ f.seqb.testBit 0 = false) ∧
      crcDiv f = ⟨.invalidInput, .badGenerator, false, 0, 0, 0, 0⟩) ∨
    (f.lenb ≠ 0 ∧ f.seqb.testBit 0 = true ∧ f.lena < f.lenb ∧
      crcDiv f = ⟨.invalidInput, .frameShort, false, 0, 0, 0, 0⟩) ∨
    (f.lenb ≠ 0 ∧ f.seqb.testBit 0 = true ∧ f.lenb ≤ f.lena ∧
      crcDiv f = ⟨.ok, .none, false, 0, f.lenb - 1, 0,
        toField (mod2div (seqA f) f.lena (seqB f) f.lenb)⟩) :=
  crcOp_cases f _

/-- Everything CRC.VFY can answer (40_crc.md R105). -/
theorem crcVfy_cases (f : Fields) :
    ((f.lenb = 0 ∨ f.seqb.testBit 0 = false) ∧
      crcVfy f = ⟨.invalidInput, .badGenerator, false, 0, 0, 0, 0⟩) ∨
    (f.lenb ≠ 0 ∧ f.seqb.testBit 0 = true ∧ f.lena < f.lenb ∧
      crcVfy f = ⟨.invalidInput, .frameShort, false, 0, 0, 0, 0⟩) ∨
    (f.lenb ≠ 0 ∧ f.seqb.testBit 0 = true ∧ f.lenb ≤ f.lena ∧
      crcVfy f = ⟨.ok, .none, allZero (mod2div (seqA f) f.lena (seqB f) f.lenb), 0, 0, 0, 0⟩) :=
  crcOp_cases f _

/-- Everything CRC.VFYX can answer (40_crc.md R106). -/
theorem crcVfyx_cases (f : Fields) :
    ((f.lenb = 0 ∨ f.seqb.testBit 0 = false) ∧
      crcVfyx f = ⟨.invalidInput, .badGenerator, false, 0, 0, 0, 0⟩) ∨
    (f.lenb ≠ 0 ∧ f.seqb.testBit 0 = true ∧ f.lena < f.lenb ∧
      crcVfyx f = ⟨.invalidInput, .frameShort, false, 0, 0, 0, 0⟩) ∨
    (f.lenb ≠ 0 ∧ f.seqb.testBit 0 = true ∧ f.lenb ≤ f.lena ∧
      crcVfyx f =
        if allZero (mod2div (seqA f) f.lena (seqB f) f.lenb) then
          ⟨.ok, .none, false, 0, f.lena - f.lenb + 1, 0, f.seqa % 2 ^ (f.lena - f.lenb + 1)⟩
        else ⟨.verificationFailed, .none, false, 0, 0, 0, 0⟩) := by
  rcases crcOp_cases f _ with h | h | ⟨h₁, h₂, h₃, h⟩
  · exact .inl h
  · exact .inr (.inl h)
  · refine .inr (.inr ⟨h₁, h₂, h₃, h.trans ?_⟩)
    rw [crcFrameLen, crcGenLen, crcFrame, seqA, toField_take _ _ _ (by omega)]
    rfl

theorem length_xorWindow {G W : BitSeq} {i : Nat} (h : i + G.length ≤ W.length) :
    (xorWindow G W i).length = W.length := by
  simp [xorWindow]; omega

/-- One window: the elements inside it are xored with the generator's, all others stay. -/
theorem bitAt_xorWindow {G W : BitSeq} {i : Nat} (h : i + G.length ≤ W.length) (k : Nat) :
    bitAt (xorWindow G W i) k =
      if i ≤ k ∧ k < i + G.length then Bool.xor (bitAt W k) (bitAt G (k - i)) else bitAt W k := by
  by_cases hk : k < W.length
  · rw [bitAt_eq_getElem (by rw [length_xorWindow h]; exact hk), bitAt_eq_getElem hk]
    simp only [xorWindow, xorSeq, List.getElem_append, List.length_take, List.length_zipWith,
      List.length_drop, List.getElem_take, List.getElem_zipWith, List.getElem_drop]
    have hi : min i W.length = i := by omega
    have hg : min (W.length - i) G.length = G.length := by omega
    simp only [hi, hg]
    by_cases h₁ : k < i
    · simp [h₁, Nat.not_le.mpr h₁]
    · by_cases h₂ : k - i < G.length
      · have : k < i + G.length := by omega
        have h₄ : i + (k - i) = k := by omega
        simp [h₁, h₂, this, not_lt.mp h₁, bitAt_eq_getElem h₂, h₄]
      · have h₃ : ¬ k < i + G.length := by omega
        have h₄ : i + G.length + (k - i - G.length) = k := by omega
        simp [h₁, h₂, h₃, h₄]
  · have : ¬ (i ≤ k ∧ k < i + G.length) := by omega
    rw [if_neg this, bitAt_of_length_le (not_lt.mp hk),
      bitAt_of_length_le (by rw [length_xorWindow h]; omega)]

theorem length_scanStep {G W : BitSeq} {i : Nat} (h : i + G.length ≤ W.length) :
    (scanStep G W i).length = W.length := by
  unfold scanStep; split
  · exact length_xorWindow h
  · rfl

/-- One window position of the scan, element by element. -/
theorem bitAt_scanStep {G W : BitSeq} {i : Nat} (h : i + G.length ≤ W.length) (k : Nat) :
    bitAt (scanStep G W i) k =
      if bitAt W i = true ∧ i ≤ k ∧ k < i + G.length then Bool.xor (bitAt W k) (bitAt G (k - i))
      else bitAt W k := by
  unfold scanStep
  by_cases hw : bitAt W i = true
  · simp [hw, bitAt_xorWindow h]
  · simp [hw]

@[simp] theorem scan_zero (G D : BitSeq) : scan G D 0 = D := rfl

theorem scan_succ (G D : BitSeq) (k : Nat) : scan G D (k + 1) = scanStep G (scan G D k) k := by
  simp [scan, List.range_succ]

theorem length_scan {G D : BitSeq} {k : Nat} (hk : k + G.length ≤ D.length + 1) :
    (scan G D k).length = D.length := by
  induction k with
  | zero => rfl
  | succ k ih =>
    have hl := ih (by omega)
    rw [scan_succ, length_scanStep (by omega), hl]

theorem length_mod2div {D G : BitSeq} (h₁ : 1 ≤ G.length) (h₂ : G.length ≤ D.length) :
    (mod2div D D.length G G.length).length = G.length - 1 := by
  rw [mod2div, List.length_drop, length_scan (by omega)]
  omega

end Sys2Proof.Machine
end

