-- ==== Sys2Proof/Laws/Decode.lean ====
section
/-! SUPPORT. The decoder's parts: one field, the opcode map, and what an accepted word is. -/

namespace Sys2Proof

theorem bitField_lt (w : Nat) (lo n : Nat) : bitField w lo n < 2 ^ n :=
  Nat.mod_lt _ (Nat.two_pow_pos n)

theorem testBit_bitField (w : Nat) (lo n k : Nat) :
    (bitField w lo n).testBit k = (decide (k < n) && w.testBit (lo + k)) := by
  simp [bitField, Nat.testBit_mod_two_pow, Nat.testBit_shiftRight]

/-- Each row of the opcode map: the command it gives has that opcode and those fields. -/
theorem instrOfOp_eq_some_iff (op : Nat) (f : Fields) (i : Instr) :
    instrOfOp op f = some i ↔ i.opcode = op ∧ i.fields = f := by
  constructor
  · intro h
    unfold instrOfOp at h
    split at h <;> simp at h <;> subst h <;> simp [Instr.opcode, Instr.fields]
  · rintro ⟨rfl, rfl⟩
    cases i <;> rfl

theorem Instr.opcode_lt (i : Instr) : i.opcode < 8 := by cases i <;> simp [Instr.opcode]

@[simp] theorem fitsWord_iff (w n : Nat) : fitsWord w n = true ↔ w < 2 ^ n := by
  simp [fitsWord, Nat.shiftRight_eq_div_pow, Nat.div_eq_zero_iff]

/-- `lowBits` is the remainder modulo `2^nbits`. -/
theorem lowBits_eq_mod (nbits w : Nat) : lowBits nbits w = w % 2 ^ nbits := by
  unfold lowBits
  split
  · rename_i h
    exact (Nat.mod_eq_of_lt ((fitsWord_iff w nbits).1 h)).symm
  · rfl

/-- What the decoder accepts: a word of `CW` bits, whose command has the word's opcode and fields. -/
theorem decode_eq_ok_iff (p : Params) (w : Nat) (i : Instr) :
    decode p w = .ok i ↔ w < 2 ^ p.cw ∧ i.opcode = bitField w 0 3 ∧ i.fields = fieldsOfWord p w := by
  unfold decode
  simp only [fitsWord_iff]
  split
  · rename_i hw
    rw [← instrOfOp_eq_some_iff]
    split <;> rename_i h <;> simp [h, hw]
  · simp_all

/-- A decoded command fits its fields. -/
theorem wf_of_decode {p : Params} {w : Nat} {i : Instr} (h : decode p w = .ok i) : i.wf p = true := by
  obtain ⟨-, -, hf⟩ := (decode_eq_ok_iff p w i).1 h
  simp [Instr.wf, Fields.wf, hf, fieldsOfWord, bitField_lt]

end Sys2Proof
end

