-- ==== Sys2Proof/Laws/Hamming.lean ====
section
/-! SUPPORT. The Hamming unit: positions, powers of two, and the outcomes of a decode. -/

namespace Sys2Proof.Machine

theorem mem_positions {n q : Nat} : q ∈ positions n ↔ 1 ≤ q ∧ q ≤ n := by
  simp [positions, List.mem_range'_1]; omega

@[simp] theorem positions_zero : positions 0 = [] := rfl

theorem positions_succ (n : Nat) : positions (n + 1) = positions n ++ [n + 1] := by
  simp [positions, List.range'_concat, Nat.add_comm]

theorem isPow2_iff_log2 (q : Nat) : isPow2 q = true ↔ q = 2 ^ q.log2 := by simp [isPow2]

theorem isPow2_two_pow (k : Nat) : isPow2 (2 ^ k) = true := by simp [isPow2, Nat.log2_two_pow]

theorem length_payload (B : BitSeq) (n : Nat) : (payload B n).length = (payloadPositions n).length := by
  simp [payload]

theorem length_parity_add_payload (n : Nat) :
    (parityPositions n).length + (payloadPositions n).length = n := by
  have := List.length_eq_length_filter_add (l := positions n) isPow2
  simp only [parityPositions, payloadPositions]
  simpa [positions] using this.symm

theorem parityCount_le (n : Nat) : parityCount n ≤ n := by
  have := length_parity_add_payload n
  unfold parityCount; omega

theorem parityPositions_succ (n : Nat) :
    parityPositions (n + 1) = parityPositions n ++ if isPow2 (n + 1) then [n + 1] else [] := by
  simp only [parityPositions, positions_succ, List.filter_append]
  cases h : isPow2 (n + 1) <;> simp [h]

theorem payloadPositions_succ (n : Nat) :
    payloadPositions (n + 1) = payloadPositions n ++ if isPow2 (n + 1) then [] else [n + 1] := by
  simp only [payloadPositions, positions_succ, List.filter_append]
  cases h : isPow2 (n + 1) <;> simp [h]

theorem parityCount_succ (n : Nat) :
    parityCount (n + 1) = parityCount n + if isPow2 (n + 1) then 1 else 0 := by
  rw [parityCount, parityPositions_succ]
  cases isPow2 (n + 1) <;> simp [parityCount]

theorem payload_succ (B : BitSeq) (n : Nat) :
    payload B (n + 1) = payload B n ++ if isPow2 (n + 1) then [] else [posAt B (n + 1)] := by
  rw [payload, payloadPositions_succ]
  cases isPow2 (n + 1) <;> simp [payload]

@[simp] theorem syndrome_zero (E : BitSeq) : syndrome E 0 = 0 := rfl

/-- One more position of the accumulation (41_hamming.md R132). -/
theorem syndrome_succ (E : BitSeq) (n : Nat) :
    syndrome E (n + 1) = if posAt E (n + 1) then syndrome E n ^^^ (n + 1) else syndrome E n := by
  simp [syndrome, positions_succ]

@[simp] theorem length_corrected (E : BitSeq) (v : Nat) : (corrected E v).length = E.length := by
  unfold corrected; split <;> simp

/-- Everything HAM.DEC can answer (41_hamming.md R135, R136). -/
theorem hamDec_cases (f : Fields) :
    (f.lena ≠ f.x ∧ hamDec f = ⟨.invalidInput, .lengthMismatch, false, 0, 0, 0, 0⟩) ∨
    (f.lena = f.x ∧ f.y ≠ f.x - parityCount f.x ∧
      hamDec f = ⟨.invalidInput, .layoutMismatch, false, 0, 0, 0, 0⟩) ∨
    (f.lena = f.x ∧ f.y = f.x - parityCount f.x ∧ syndrome (seqA f) f.x = 0 ∧
      hamDec f = ⟨.ok, .none, false, 0, f.y, 0, toField (payload (seqA f) f.x)⟩) ∨
    (f.lena = f.x ∧ f.y = f.x - parityCount f.x ∧ 0 < syndrome (seqA f) f.x ∧
      syndrome (seqA f) f.x ≤ f.x ∧
      hamDec f = ⟨.ok, .none, false, 1, f.y, syndrome (seqA f) f.x,
        toField (payload (flipAt (seqA f) (syndrome (seqA f) f.x - 1)) f.x)⟩) ∨
    (f.lena = f.x ∧ f.y = f.x - parityCount f.x ∧ f.x < syndrome (seqA f) f.x ∧
      hamDec f = ⟨.uncorrectablePosition, .none, false, 0, 0, syndrome (seqA f) f.x, 0⟩) := by
  by_cases h₀ : f.lena = f.x
  · by_cases h₁ : f.y = f.x - parityCount f.x
    · refine .inr (.inr ?_)
      have hd : hamDec f = decodeBlock (seqA f) f.x f.y := by
        simp [hamDec, hamCheck, hamBlockLen, decTotalLen, decPayloadLen, hamBlock, h₀, h₁]
      rw [hd]
      rcases Nat.eq_zero_or_pos (syndrome (seqA f) f.x) with hs | hs
      · exact .inl ⟨h₀, h₁, hs, by simp [decodeBlock, hs, corrected]⟩
      · by_cases hle : syndrome (seqA f) f.x ≤ f.x
        · have hne : syndrome (seqA f) f.x ≠ 0 := by omega
          exact .inr (.inl ⟨h₀, h₁, hs, hle, by
            simp [decodeBlock, hle, corrected, hne, correctedCount_pos hne]⟩)
        · exact .inr (.inr ⟨h₀, h₁, not_le.mp hle, by simp [decodeBlock, hle]⟩)
    · exact .inr (.inl ⟨h₀, h₁, by simp [hamDec, hamCheck, hamBlockLen, decTotalLen, decPayloadLen, h₀, h₁]⟩)
  · exact .inl ⟨h₀, by simp [hamDec, hamCheck, hamBlockLen, decTotalLen, h₀]⟩

end Sys2Proof.Machine
end

