-- ==== Sys2Proof/Laws/PerInstr.lean ====
section
/-! SUPPORT. Two facts about every command as syntax, one lemma per constructor: `OP` stands in the three
low bits of the command word (spec 30_encoding.md R71), and the word of a command that fits its fields has
no bit at index `CW` or above. -/

namespace Sys2Proof.Laws

/-- The three low bits of the word are the opcode, whatever stands above them. -/
theorem opcode_of_encode (p : Params) (i : Instr) : encode p i % 8 = i.opcode := by
  have h := Instr.opcode_lt i
  have low : ∀ v lo : Nat, v <<< (lo + 3) % 8 = 0 := fun v lo => by
    simp [Nat.shiftLeft_eq, Nat.pow_add, ← Nat.mul_assoc, Nat.mul_mod_left]
  have h₁ := low i.fields.lena 0
  have h₂ := low i.fields.lenb p.lw
  have h₃ := low i.fields.x (2 * p.lw)
  have h₄ := low i.fields.y (2 * p.lw + p.iw)
  have h₅ := low i.fields.seqa (2 * p.lw + 2 * p.iw)
  have h₆ := low i.fields.seqb (2 * p.lw + 2 * p.iw + p.lmax)
  simp only [encode, Params.lenaLo, Params.lenbLo, Params.xLo, Params.yLo, Params.seqaLo, Params.seqbLo]
  omega

/-- A field below `2^n` on top of a word below `2^lo` gives a word below `2^(lo+n)`. -/
theorem add_shiftLeft_lt {w v lo n : Nat} (hw : w < 2 ^ lo) (hv : v < 2 ^ n) :
    w + v <<< lo < 2 ^ (lo + n) := by
  rw [Nat.shiftLeft_eq, Nat.pow_add]
  have := Nat.mul_le_mul_right (2 ^ lo) (Nat.succ_le_of_lt hv)
  rw [Nat.succ_mul, Nat.mul_comm (2 ^ n)] at this
  omega

theorem encode_lt (p : Params) (i : Instr) (h : i.wf p = true) : encode p i < 2 ^ p.cw := by
  simp only [Instr.wf, Fields.wf, Bool.and_eq_true, decide_eq_true_eq] at h
  obtain ⟨⟨⟨⟨⟨h₁, h₂⟩, h₃⟩, h₄⟩, h₅⟩, h₆⟩ := h
  have e₀ : i.opcode < 2 ^ p.lenaLo := Instr.opcode_lt i
  have e₁ := add_shiftLeft_lt e₀ h₁
  rw [show p.lenaLo + p.lw = p.lenbLo by simp only [Params.lenaLo, Params.lenbLo]; omega] at e₁
  have e₂ := add_shiftLeft_lt e₁ h₂
  rw [show p.lenbLo + p.lw = p.xLo by simp only [Params.xLo, Params.lenbLo]; omega] at e₂
  have e₃ := add_shiftLeft_lt e₂ h₃
  rw [show p.xLo + p.iw = p.yLo by simp only [Params.xLo, Params.yLo]; omega] at e₃
  have e₄ := add_shiftLeft_lt e₃ h₄
  rw [show p.yLo + p.iw = p.seqaLo by simp only [Params.yLo, Params.seqaLo]; omega] at e₄
  have e₅ := add_shiftLeft_lt e₄ h₅
  rw [show p.seqaLo + p.lmax = p.seqbLo by simp only [Params.seqaLo, Params.seqbLo]; omega] at e₅
  have e₆ := add_shiftLeft_lt e₅ h₆
  rw [show p.seqbLo + p.lmax = p.cw by simp only [Params.seqbLo, Params.cw]; omega] at e₆
  exact e₆

namespace OpcodeInLowBits

def Statement (i : Instr) : Prop := ∀ p : Params, encode p i % 8 = i.opcode

theorem crcDiv (f : Fields) : Statement (.crcDiv f) := fun p => opcode_of_encode p _
theorem crcVfy (f : Fields) : Statement (.crcVfy f) := fun p => opcode_of_encode p _
theorem crcVfyx (f : Fields) : Statement (.crcVfyx f) := fun p => opcode_of_encode p _
theorem hamVal (f : Fields) : Statement (.hamVal f) := fun p => opcode_of_encode p _
theorem hamDec (f : Fields) : Statement (.hamDec f) := fun p => opcode_of_encode p _
theorem reserved0 (f : Fields) : Statement (.reserved0 f) := fun p => opcode_of_encode p _
theorem reserved6 (f : Fields) : Statement (.reserved6 f) := fun p => opcode_of_encode p _
theorem reserved7 (f : Fields) : Statement (.reserved7 f) := fun p => opcode_of_encode p _

end OpcodeInLowBits

namespace WordFitsPort

def Statement (i : Instr) : Prop := ∀ p : Params, i.wf p = true → encode p i < 2 ^ p.cw

theorem crcDiv (f : Fields) : Statement (.crcDiv f) := fun p => encode_lt p _
theorem crcVfy (f : Fields) : Statement (.crcVfy f) := fun p => encode_lt p _
theorem crcVfyx (f : Fields) : Statement (.crcVfyx f) := fun p => encode_lt p _
theorem hamVal (f : Fields) : Statement (.hamVal f) := fun p => encode_lt p _
theorem hamDec (f : Fields) : Statement (.hamDec f) := fun p => encode_lt p _
theorem reserved0 (f : Fields) : Statement (.reserved0 f) := fun p => encode_lt p _
theorem reserved6 (f : Fields) : Statement (.reserved6 f) := fun p => encode_lt p _
theorem reserved7 (f : Fields) : Statement (.reserved7 f) := fun p => encode_lt p _

end WordFitsPort

end Sys2Proof.Laws
end

