-- ==== Sys2Proof/Laws/Step.lean ====
section
/-! SUPPORT. Everything a command and a step can do, once; later proofs cite these and unfold neither. -/

namespace Sys2Proof.Machine

/-! ### One equation per command -/

@[simp] theorem exec_crcDiv (f : Fields) (s : State) : exec (.crcDiv f) s = issue (crcDiv f) s := rfl
@[simp] theorem exec_crcVfy (f : Fields) (s : State) : exec (.crcVfy f) s = issue (crcVfy f) s := rfl
@[simp] theorem exec_crcVfyx (f : Fields) (s : State) : exec (.crcVfyx f) s = issue (crcVfyx f) s := rfl
@[simp] theorem exec_hamVal (f : Fields) (s : State) : exec (.hamVal f) s = issue (hamVal f) s := rfl
@[simp] theorem exec_hamDec (f : Fields) (s : State) : exec (.hamDec f) s = issue (hamDec f) s := rfl
@[simp] theorem exec_reserved0 (f : Fields) (s : State) : exec (.reserved0 f) s = issue illegalOp s := rfl
@[simp] theorem exec_reserved6 (f : Fields) (s : State) : exec (.reserved6 f) s = issue illegalOp s := rfl
@[simp] theorem exec_reserved7 (f : Fields) (s : State) : exec (.reserved7 f) s = issue illegalOp s := rfl

/-- Every command is the forming of one response, whatever the state. -/
theorem exec_eq_issue (i : Instr) : ∃ r, ∀ s, exec i s = issue r s := by
  cases i <;> exact ⟨_, fun _ => rfl⟩

/-- Everything a step can do. -/
theorem step_cases (s : State) :
    (s.sched = [] ∧ step s = .next s) ∨
    (∃ ss, s.sched = .issue :: ss ∧ (s.phase = .done ∨ s.cmds = []) ∧ step s = .next s.popSched) ∨
    (∃ ss w ws e, s.sched = .issue :: ss ∧ s.phase = .idle ∧ s.cmds = w :: ws ∧
      decode s.params w = .error e ∧ step s = .refused .notACommandWord) ∨
    (∃ ss w ws i, s.sched = .issue :: ss ∧ s.phase = .idle ∧ s.cmds = w :: ws ∧
      decode s.params w = .ok i ∧ step s = exec i (s.popSched.accept i)) ∨
    (∃ ss, s.sched = .take :: ss ∧ step s = .next s.popSched.takeRsp) ∨
    (∃ ss, s.sched = .reset :: ss ∧ step s = .next s.popSched.resetCore) := by
  rcases hs : s.sched with _ | ⟨_ | _ | _, ss⟩
  · exact .inl ⟨rfl, by simp [step, hs]⟩
  · rcases portCommand_cases s with ⟨hp, h⟩ | ⟨hp, hc, h⟩ | ⟨w, ws, hp, hc, h⟩
    · exact .inr (.inl ⟨ss, rfl, .inl hp, by simp [step, hs, h]⟩)
    · exact .inr (.inl ⟨ss, rfl, .inr hc, by simp [step, hs, h]⟩)
    · cases hd : decode s.params w with
      | error e => exact .inr (.inr (.inl ⟨ss, w, ws, e, rfl, hp, hc, hd, by simp [step, hs, h, hd]⟩))
      | ok i => exact .inr (.inr (.inr (.inl ⟨ss, w, ws, i, rfl, hp, hc, hd, by simp [step, hs, h, hd]⟩)))
  · exact .inr (.inr (.inr (.inr (.inl ⟨ss, rfl, by simp [step, hs]⟩))))
  · exact .inr (.inr (.inr (.inr (.inr ⟨ss, rfl, by simp [step, hs]⟩))))

end Sys2Proof.Machine
end

