-- ==== Sys2Proof/Laws/Run.lean ====
section
/-! SUPPORT. What each of the three transitions of a run does, once; and that an enabled one completes. -/

namespace Sys2Proof.Machine

/-! ### `ask` changes the host's two lists only -/

@[simp] theorem State.ask_params (s : State) (m : Move) : (s.ask m).params = s.params := by cases m <;> rfl
@[simp] theorem State.ask_phase (s : State) (m : Move) : (s.ask m).phase = s.phase := by cases m <;> rfl
@[simp] theorem State.ask_rsp (s : State) (m : Move) : (s.ask m).rsp = s.rsp := by cases m <;> rfl
@[simp] theorem State.ask_inFlight (s : State) (m : Move) : (s.ask m).inFlight = s.inFlight := by
  cases m <;> rfl
@[simp] theorem State.ask_delivered (s : State) (m : Move) : (s.ask m).delivered = s.delivered := by
  cases m <;> rfl
@[simp] theorem State.ask_freeCount (s : State) (m : Move) : (s.ask m).freeCount = s.freeCount := by
  cases m <;> rfl

/-- ISSUE of an enabled command word: it is executed, and the host's lists are as before. -/
theorem step_ask_issue {s : State} {w : Nat} {i : Instr} (hp : s.phase = .idle)
    (hd : decode s.params w = .ok i) :
    step (s.ask (.issue w)) = exec i { s with inFlight := some i } := by
  simp [step, State.ask, portCommand, hp, hd, State.popSched, State.accept]

theorem step_ask_take (s : State) : step (s.ask .take) = .next s.takeRsp := by
  simp [step, State.ask, State.popSched]

theorem step_ask_reset (s : State) : step (s.ask .reset) = .next s.resetCore := by
  simp [step, State.ask, State.popSched]

/-- Everything an enabled transition can do. -/
theorem step_ask_cases {s : State} {m : Move} (h : m.enabled s) :
    (∃ w i r, m = .issue w ∧ s.phase = .idle ∧ decode s.params w = .ok i ∧ (∀ u, exec i u = issue r u) ∧
      step (s.ask m) = .next { s with phase := .done, rsp := r, inFlight := some i }) ∨
    (m = .take ∧ s.phase = .done ∧ step (s.ask m) = .next s.takeRsp) ∨
    (m = .reset ∧ step (s.ask m) = .next s.resetCore) := by
  cases m with
  | issue w =>
    obtain ⟨hp, i, hi⟩ := h
    obtain ⟨r, hr⟩ := exec_eq_issue i
    refine .inl ⟨w, i, r, rfl, hp, hi, hr, ?_⟩
    rw [step_ask_issue hp hi, hr, issue_idle (by simpa using hp)]
  | take => exact .inr (.inl ⟨rfl, h, step_ask_take s⟩)
  | reset => exact .inr (.inr ⟨rfl, step_ask_reset s⟩)

end Sys2Proof.Machine
end

