-- ==== Sys2Proof/Laws/Safety.lean ====
section
/-! SUPPORT. `Answers`, the term most claims are stated in, reduced to the response a command forms. -/

namespace Sys2Proof.Machine

/-- A command whose every execution is the forming of `r` answers `r` and nothing else. -/
theorem answers_iff {i : Instr} {r : Response} (h : ∀ s, exec i s = issue r s) (r' : Response) :
    Answers i r' ↔ r' = r := by
  constructor
  · intro ha
    have := ha State.reset rfl
    rw [h, issue_idle rfl] at this
    simpa using this.symm
  · rintro rfl s hs
    rw [h, issue_idle hs]

@[simp] theorem answers_crcDiv (f : Fields) (r : Response) : Answers (.crcDiv f) r ↔ r = crcDiv f :=
  answers_iff (exec_crcDiv f) r
@[simp] theorem answers_crcVfy (f : Fields) (r : Response) : Answers (.crcVfy f) r ↔ r = crcVfy f :=
  answers_iff (exec_crcVfy f) r
@[simp] theorem answers_crcVfyx (f : Fields) (r : Response) : Answers (.crcVfyx f) r ↔ r = crcVfyx f :=
  answers_iff (exec_crcVfyx f) r
@[simp] theorem answers_hamVal (f : Fields) (r : Response) : Answers (.hamVal f) r ↔ r = hamVal f :=
  answers_iff (exec_hamVal f) r
@[simp] theorem answers_hamDec (f : Fields) (r : Response) : Answers (.hamDec f) r ↔ r = hamDec f :=
  answers_iff (exec_hamDec f) r
@[simp] theorem answers_reserved0 (f : Fields) (r : Response) : Answers (.reserved0 f) r ↔ r = illegalOp :=
  answers_iff (exec_reserved0 f) r
@[simp] theorem answers_reserved6 (f : Fields) (r : Response) : Answers (.reserved6 f) r ↔ r = illegalOp :=
  answers_iff (exec_reserved6 f) r
@[simp] theorem answers_reserved7 (f : Fields) (r : Response) : Answers (.reserved7 f) r ↔ r = illegalOp :=
  answers_iff (exec_reserved7 f) r

end Sys2Proof.Machine
end

