-- ==== Sys2Proof/Tests/Slice0.lean ====
section
/-! SUPPORT. Tests of the model: expected values from spec/95_test_vectors.md (the vector or section is
named at each test) or worked out by hand from the rule named; and, for every statement with hypotheses, a
concrete state and operands that meet them all. -/

namespace Sys2Proof.Tests

open Sys2Proof.Machine

/-! ### Helpers -/

/-- The response after one outcome, if it is a next state in which one waits. -/
def answerOf (o : Host.Outcome State Fault Refusal) : Option Response :=
  match o with
  | .next t => if t.phase = .done then some t.rsp else none
  | _ => none

/-- A command with the two sequences given, written leading bit first (30_encoding.md R81). -/
def crcFields (A B : BitSeq) : Fields := ⟨A.length, B.length, 0, 0, toField A, toField B⟩

/-- The fields of HAM.DEC (30_encoding.md R81). -/
def decFields (A : BitSeq) (n m : Nat) : Fields := ⟨A.length, 0, n, m, toField A, 0⟩

/-- A bit sequence from a string (20_memory.md R54). -/
def bits (s : String) : BitSeq := s.toList.map (· == '1')

/-- A state with the small widths and the port free, or with a response waiting. -/
def idleState : State := { State.reset with params := Config.small }
def doneState : State :=
  { idleState with phase := .done, rsp := ⟨.ok, .none, true, 0, 0, 0, 0⟩, inFlight := some (.hamVal ⟨0, 0, 11, 4, 0, 0⟩) }

/-! ### WellFormed: for each check an ill-formed term that it refuses, one past the widest value -/

theorem test_wf_accepts_widest :
    Instr.wf Config.small (.crcDiv ⟨15, 15, 255, 255, 0x7FFF, 0x7FFF⟩) = true := by decide
theorem test_wf_refuses_lena : Instr.wf Config.small (.crcDiv ⟨16, 0, 0, 0, 0, 0⟩) = false := by decide
theorem test_wf_refuses_lenb : Instr.wf Config.small (.crcDiv ⟨0, 16, 0, 0, 0, 0⟩) = false := by decide
theorem test_wf_refuses_x : Instr.wf Config.small (.hamVal ⟨0, 0, 256, 0, 0, 0⟩) = false := by decide
theorem test_wf_refuses_y : Instr.wf Config.small (.hamVal ⟨0, 0, 0, 256, 0, 0⟩) = false := by decide
theorem test_wf_refuses_seqa : Instr.wf Config.small (.hamDec ⟨0, 0, 0, 0, 0x8000, 0⟩) = false := by decide
theorem test_wf_refuses_seqb : Instr.wf Config.small (.crcVfy ⟨0, 0, 0, 0, 0, 0x8000⟩) = false := by decide
theorem test_rsp_wf_refuses_olen :
    Response.wf Config.small ⟨.ok, .none, false, 0, 16, 0, 0⟩ = false := by decide
theorem test_rsp_wf_refuses_synd :
    Response.wf Config.small ⟨.ok, .none, false, 0, 0, 16, 0⟩ = false := by decide
theorem test_rsp_wf_refuses_obits :
    Response.wf Config.small ⟨.ok, .none, false, 0, 0, 0, 0x8000⟩ = false := by decide

/-! ### Decoding: for every constructor a word written out from the layout of 30_encoding.md R71

With `LW = 4`, `IW = 8`: OP at bit 0, LENA at 3, LENB at 7, X at 11, Y at 19, SEQA at 27, SEQB at 42. -/

theorem test_decode_crcDiv : -- 95_test_vectors.md section 4: 1 + (6 << 3) + (4 << 7) + (0x5 << 27) + (0xB << 42)
    decode Config.small (0b001 + 6 * 2 ^ 3 + 4 * 2 ^ 7 + 0b101 * 2 ^ 27 + 0b1011 * 2 ^ 42) =
      .ok (.crcDiv (crcFields (bits "101000") (bits "1101"))) := by rfl
theorem test_decode_crcVfy : -- section 4, 0x0002C00E8000232
    decode Config.small 0x0002C00E8000232 =
      .ok (.crcVfy (crcFields (bits "101110") (bits "1101"))) := by rfl
theorem test_decode_crcVfyx : -- section 4, 0x0002C00A8000233
    decode Config.small 0x0002C00A8000233 =
      .ok (.crcVfyx (crcFields (bits "101010") (bits "1101"))) := by rfl
theorem test_decode_hamVal : -- section 4, HAM.VAL 11, 4
    decode Config.small (0b100 + 11 * 2 ^ 11 + 4 * 2 ^ 19) = .ok (.hamVal ⟨0, 0, 11, 4, 0, 0⟩) := by rfl
theorem test_decode_hamDec : -- section 4, HAM.DEC "111101100011101", 15, 11
    decode Config.small (0b101 + 15 * 2 ^ 3 + 15 * 2 ^ 11 + 11 * 2 ^ 19 + 0x5C6F * 2 ^ 27) =
      .ok (.hamDec (decFields (bits "111101100011101") 15 11)) := by rfl
theorem test_decode_reserved0 : -- section 4, the all-zero word
    decode Config.small 0 = .ok (.reserved0 ⟨0, 0, 0, 0, 0, 0⟩) := by rfl
theorem test_decode_reserved6 : -- V-OP-01
    decode Config.small (0b110 + 3 * 2 ^ 3 + 2 * 2 ^ 7 + 3 * 2 ^ 11 + 4 * 2 ^ 19 + 0b101 * 2 ^ 27 +
      0b11 * 2 ^ 42) = .ok (.reserved6 ⟨3, 2, 3, 4, 0b101, 0b11⟩) := by rfl
theorem test_decode_reserved7 : -- R71, R75
    decode Config.small (0b111 + 1 * 2 ^ 7) = .ok (.reserved7 ⟨0, 1, 0, 0, 0, 0⟩) := by rfl
theorem test_decode_recommended : -- section 4, the sum for LW = 8, IW = 32
    decode Config.recommended (5 + 15 * 2 ^ 3 + 15 * 2 ^ 19 + 11 * 2 ^ 51 + 0x5D6F * 2 ^ 83) =
      .ok (.hamDec (decFields (bits "111101101011101") 15 11)) := by rfl
theorem test_decode_too_wide : -- R71: CW = 57, bit 57 is no bit of the word
    decode Config.small (2 ^ 57) = .error .tooWide := by rfl
theorem test_decodeTableWord :
    decodeTableWord 8 0x4 = some (.hamVal ⟨0, 0, 0, 0, 0, 0⟩) := by decide

/-! ### One step of each command, from reset -/

theorem test_step_crcDiv : -- V-CRC-01
    answerOf (exec (.crcDiv (crcFields (bits "101000") (bits "1101"))) idleState) =
      some ⟨.ok, .none, false, 0, 3, 0, toField (bits "110")⟩ := by decide
theorem test_crcDiv_leading_zero : -- V-CRC-04: leading bit 0, no xor
    answerOf (exec (.crcDiv (crcFields (bits "0111") (bits "1101"))) idleState) =
      some ⟨.ok, .none, false, 0, 3, 0, toField (bits "111")⟩ := by decide
theorem test_crcVfy_valid : -- V-CRC-02
    answerOf (exec (.crcVfy (crcFields (bits "101110") (bits "1101"))) idleState) =
      some ⟨.ok, .none, true, 0, 0, 0, 0⟩ := by decide
theorem test_crcVfy_generator_first : -- V-CRC-09: both causes apply
    answerOf (exec (.crcVfy (crcFields (bits "10") (bits "011"))) idleState) =
      some ⟨.invalidInput, .badGenerator, false, 0, 0, 0, 0⟩ := by decide
theorem test_crcVfyx_payload : -- V-CRC-08: the payload is the frame's, not the working copy's
    answerOf (exec (.crcVfyx (crcFields (bits "11010110111110") (bits "10011"))) idleState) =
      some ⟨.ok, .none, false, 0, 10, 0, toField (bits "1101011011")⟩ := by decide
theorem test_crcVfyx_rejects : -- section 4: CRC.VFYX "101010", "1101"
    answerOf (exec (.crcVfyx (crcFields (bits "101010") (bits "1101"))) idleState) =
      some ⟨.verificationFailed, .none, false, 0, 0, 0, 0⟩ := by decide
theorem test_hamVal_equality : -- V-HAM-04: 256 >= 256 with IW = 8
    answerOf (exec (.hamVal ⟨0, 0, 247, 8, 0, 0⟩) idleState) =
      some ⟨.ok, .none, true, 0, 0, 0, 0⟩ := by decide
theorem test_hamVal_one_short : -- V-HAM-04
    answerOf (exec (.hamVal ⟨0, 0, 4294967264, 32, 0, 0⟩) State.reset) =
      some ⟨.ok, .none, false, 0, 0, 0, 0⟩ := by decide
theorem test_hamDec_corrects : -- V-HAM-09: the last position, S = n
    answerOf (exec (.hamDec (decFields (bits "011010110011") 12 8)) idleState) =
      some ⟨.ok, .none, false, 1, 8, 12, toField (bits "11010010")⟩ := by decide
theorem test_hamDec_uncorrectable : -- V-HAM-09: positions 5 and 8
    answerOf (exec (.hamDec (decFields (bits "011000100010") 12 8)) idleState) =
      some ⟨.uncorrectablePosition, .none, false, 0, 0, 13, 0⟩ := by decide
theorem test_reserved0 : -- section 4: the all-zero command
    answerOf (exec (.reserved0 ⟨0, 0, 0, 0, 0, 0⟩) idleState) =
      some ⟨.invalidInput, .illegalOp, false, 0, 0, 0, 0⟩ := by decide
theorem test_reserved6 : -- V-OP-01
    answerOf (exec (.reserved6 ⟨3, 2, 3, 4, 5, 3⟩) idleState) =
      some ⟨.invalidInput, .illegalOp, false, 0, 0, 0, 0⟩ := by decide
theorem test_reserved7 : -- V-OP-01
    answerOf (exec (.reserved7 ⟨3, 2, 3, 4, 5, 3⟩) idleState) =
      some ⟨.invalidInput, .illegalOp, false, 0, 0, 0, 0⟩ := by decide

/-! ### The response word and the ports -/

theorem test_statusCodes : -- R78, the first table
    [Status.ok, .invalidInput, .verificationFailed, .uncorrectablePosition, .configurationInvalid].map
      statusCode = [0, 1, 2, 3, 4] := by decide
theorem test_detailCodes : -- R78, the second table
    [Detail.none, .illegalOp, .badGenerator, .frameShort, .lengthMismatch, .layoutMismatch].map
      detailCode = [0, 1, 2, 3, 4, 5] := by decide

theorem test_packRsp : -- section 4: 0x05CD9B80
    packRsp Config.small ⟨.ok, .none, false, 1, 11, 9, 0x5CD⟩ = 0x05CD9B80 := by decide
theorem test_packRsp_error : -- section 4: 0x00000029
    packRsp Config.small ⟨.invalidInput, .layoutMismatch, false, 0, 0, 0, 0⟩ = 0x29 := by decide
theorem test_fetch_runs_the_word : -- section 5, P1 step 1, at the widths of State.reset
    answerOf (step (State.reset.withFetchWord 344
      (1 + 6 * 2 ^ 3 + 4 * 2 ^ 11 + 0x5 <<< 83 + 0xB <<< 338))) =
      some ⟨.ok, .none, false, 0, 3, 0, 0x3⟩ := by decide
theorem test_held_command_stays : -- section 5, P3 step 2
    step { doneState with cmds := [0x0002C0018000219], sched := [.issue] } =
      .next { doneState with cmds := [0x0002C0018000219] } := by rfl
theorem test_too_wide_word_is_refused :
    step { idleState with cmds := [2 ^ 57], sched := [.issue] } = .refused .notACommandWord := by rfl
theorem test_nothing_asked_nothing_done : step State.reset = .next State.reset := by rfl

/-! ### Witnesses: for each statement with hypotheses, a state and operands that meet them all

`witness_<Name>` is the witness of `Obligations.<Name>`, each clause at its boundary. Commands are
presented to `idleState`, whose port is free. -/

/-- A well-formed frame (V-CRC-02), its corrupted copy, and one operand pair for each failing CRC check. -/
def goodFrame : Fields := crcFields (bits "101110") (bits "1101")
def badFrame : Fields := crcFields (bits "101010") (bits "1101")
def shortestFrame : Fields := crcFields (bits "1101") (bits "1101")
def shortFrame : Fields := crcFields (bits "110") (bits "1101")
def noGenerator : Fields := crcFields (bits "1010") []
def evenGenerator : Fields := crcFields (bits "1010") (bits "0101")

/-- The two packed words: the widest command, the first number too wide, each opcode. -/
theorem witness_DecodeOfEncodeIsIdentity :
    (Instr.hamDec ⟨15, 15, 255, 255, 0x7FFF, 0x7FFF⟩).wf Config.small = true := by decide
theorem witness_EncodeOfDecodeIsIdentity :
    decode Config.small (2 ^ 57 - 1) = .ok (.reserved7 ⟨15, 15, 255, 255, 0x7FFF, 0x7FFF⟩) := by rfl
theorem witness_EveryCommandWordDecodes :
    2 ^ 57 - 1 < 2 ^ (3 + 2 * Config.small.lw + 2 * Config.small.iw + 2 * (2 ^ Config.small.lw - 1)) ∧
    2 ^ (3 + 2 * Config.small.lw + 2 * Config.small.iw + 2 * (2 ^ Config.small.lw - 1)) ≤ 2 ^ 57 := by decide
theorem witness_CommandWordLayout :
    decode Config.small 0x205804 = .ok (.hamVal ⟨0, 0, 11, 4, 0, 0⟩) ∧
    decode Config.small 0x4 = .ok (.hamVal ⟨0, 0, 0, 0, 0, 0⟩) ∧ 0x4 % 8 = 0x205804 % 8 := ⟨rfl, rfl, rfl⟩
theorem witness_OpcodeMap : ∀ k < 8, k < 2 ^ Config.small.cw ∧ k % 8 = k := by decide
theorem witness_ResponseWordLayout :
    Response.wf Config.small ⟨.uncorrectablePosition, .layoutMismatch, true, 1, 15, 15, 0x7FFF⟩ = true := by
  decide
theorem witness_ResponseWordRoundTrip :
    Response.wf Config.small ⟨.ok, .none, false, 1, 11, 9, 0x5CD⟩ = true ∧
    unpackRsp Config.small 0x05CD9B80 = some ⟨.ok, .none, false, 1, 11, 9, 0x5CD⟩ := by decide

/-- What some commands answer, from the model's own operations. -/
theorem answers_crcVfyx (f : Fields) : Answers (.crcVfyx f) (crcVfyx f) :=
  fun s hs => by simp [exec, execCrcVfyx, issue, hs, State.holdResponse]
theorem answers_hamDec (f : Fields) : Answers (.hamDec f) (hamDec f) :=
  fun s hs => by simp [exec, execHamDec, issue, hs, State.holdResponse]
theorem answers_reserved6 (f : Fields) : Answers (.reserved6 f) illegalOp :=
  fun s hs => by simp [exec, execReserved6, issue, hs, State.holdResponse]

/-- The same six frame bits, the bits above set in one and clear in the other (V-CRC-11); the last element
and the first bit past it; and a response with a payload of three bits. -/
theorem witness_SequenceElementIsFieldBit :
    (5 < 6 ∧ 1 ≤ 6 ∧ SameBitsBelow 6 0x7FC5 0x5 ∧ ¬ SameBitsBelow 7 0x7FC5 0x5) ∧
    Answers (.crcVfyx goodFrame) (crcVfyx goodFrame) ∧ (crcVfyx goodFrame).olen ≤ 3 :=
  ⟨by unfold SameBitsBelow; decide, answers_crcVfyx goodFrame, by decide⟩

/-! #### The CRC unit -/

/-- The working copies of R103 for any operands, by the recursion the statement asks for. -/
def workingCopy (D G : BitSeq) : Nat → Nat → Bool
  | 0, k => bitAt D k
  | i + 1, k =>
    if workingCopy D G i i = true ∧ i ≤ k ∧ k < i + G.length then
      Bool.xor (workingCopy D G i k) (bitAt G (k - i))
    else workingCopy D G i k

theorem gen1101 : WellFormedGen (bits "1101") := ⟨by decide, rfl⟩
theorem goodFrame_good : CrcInputsGood goodFrame := ⟨by decide, by decide, by decide⟩
theorem badFrame_good : CrcInputsGood badFrame := ⟨by decide, by decide, by decide⟩
theorem shortestFrame_good : CrcInputsGood shortestFrame := ⟨by decide, by decide, by decide⟩

/-- `L = g`, the shortest dividend. -/
theorem witness_DivisionScansLeftToRight :
    WellFormedGen (bits "1101") ∧ (bits "1101").length = (bits "1011").length ∧
    (∀ k, workingCopy (bits "1011") (bits "1101") 0 k = bitAt (bits "1011") k) ∧
    (∀ i k, workingCopy (bits "1011") (bits "1101") (i + 1) k =
      if workingCopy (bits "1011") (bits "1101") i i = true ∧ i ≤ k ∧ k < i + (bits "1101").length then
        Bool.xor (workingCopy (bits "1011") (bits "1101") i k) (bitAt (bits "1101") (k - i))
      else workingCopy (bits "1011") (bits "1101") i k) :=
  ⟨gen1101, by decide, fun _ => rfl, fun _ _ => rfl⟩
theorem witness_ScanClearsLeadingBits :
    WellFormedGen (bits "1101") ∧ (bits "1101").length = (bits "1011").length := ⟨gen1101, rfl⟩
theorem witness_RemainderIsPolynomialResidue :
    WellFormedGen (bits "1101") ∧ (bits "1101").length = (bits "1011").length := ⟨gen1101, rfl⟩

/-- The four cases of the checks: `L = g`, an empty generator, a leading 0, and `L = g - 1`. -/
theorem witness_CrcDivAnswersRemainder :
    idleState.phase = .idle ∧ CrcInputsGood shortestFrame ∧ noGenerator.lenb = 0 ∧
    evenGenerator.seqb.testBit 0 = false ∧
    (shortFrame.lenb ≠ 0 ∧ shortFrame.seqb.testBit 0 = true ∧ shortFrame.lena + 1 = shortFrame.lenb) :=
  ⟨rfl, shortestFrame_good, by decide, by decide, by decide⟩

/-- A frame that verifies and one that does not; the failing checks as for CRC.DIV. -/
theorem witness_CrcVfyAnswersFlag :
    idleState.phase = .idle ∧
    (CrcInputsGood goodFrame ∧
      true ∉ mod2div (seqA goodFrame) goodFrame.lena (seqB goodFrame) goodFrame.lenb) ∧
    (CrcInputsGood badFrame ∧
      true ∈ mod2div (seqA badFrame) badFrame.lena (seqB badFrame) badFrame.lenb) :=
  ⟨rfl, ⟨goodFrame_good, by decide⟩, badFrame_good, by decide⟩
/-- And with `L = g`, where the payload is one bit. -/
theorem witness_CrcVfyxAnswersPayload :
    idleState.phase = .idle ∧
    (CrcInputsGood shortestFrame ∧
      true ∉ mod2div (seqA shortestFrame) shortestFrame.lena (seqB shortestFrame) shortestFrame.lenb) ∧
    (CrcInputsGood badFrame ∧
      true ∈ mod2div (seqA badFrame) badFrame.lena (seqB badFrame) badFrame.lenb) :=
  ⟨rfl, ⟨shortestFrame_good, by decide⟩, badFrame_good, by decide⟩

/-- Two commands with the same failing check: other frame bits, other generator bits past the first. -/
theorem witness_FailedCrcCheckReadsNoFrameBit :
    ¬ CrcInputsGood shortFrame ∧ ¬ CrcInputsGood noGenerator ∧ ¬ CrcInputsGood evenGenerator ∧
    (crcFields (bits "001") (bits "1000")).lena = shortFrame.lena ∧
    (crcFields (bits "001") (bits "1000")).lenb = shortFrame.lenb ∧
    (crcFields (bits "001") (bits "1000")).seqb.testBit 0 = shortFrame.seqb.testBit 0 := by
  unfold CrcInputsGood; decide

/-- R109: two dividends with `L = g`; then a valid frame (V-CRC-02), an error pattern (V-CRC-10), and
their xor. -/
theorem witness_DivisionIsLinear :
    (WellFormedGen (bits "1101") ∧ (bits "1101").length = (bits "1011").length ∧
      (bits "1011").length = (bits "0111").length) ∧
    idleState.phase = .idle ∧ CrcInputsGood (crcFields (bits "110100") (bits "1101")) ∧
    (bits "101110").length = 6 ∧ (bits "011010").length = 6 ∧
    seqA (crcFields (bits "110100") (bits "1101")) = xorSeq (bits "101110") (bits "011010") ∧
    true ∉ mod2div (bits "101110") 6 (seqB (crcFields (bits "110100") (bits "1101"))) 4 :=
  ⟨⟨gen1101, rfl, rfl⟩, rfl, ⟨by decide, by decide, by decide⟩, rfl, rfl, by decide, by decide⟩

/-- Scenario S7, and the frame built from its remainder. -/
theorem witness_BuiltFrameVerifies :
    idleState.phase = .idle ∧ WellFormedGen (bits "1101") ∧ 1 ≤ (bits "101").length ∧
    seqB (crcFields (bits "101000") (bits "1101")) = bits "1101" ∧
    (crcFields (bits "101000") (bits "1101")).lena = (bits "101").length + ((bits "1101").length - 1) ∧
    seqA (crcFields (bits "101000") (bits "1101")) = bits "101" ++ zeros 3 ∧
    seqA goodFrame = bits "101" ++ bits "110" ∧ seqB goodFrame = bits "1101" ∧ goodFrame.lena = 6 :=
  ⟨rfl, gen1101, by decide, by decide, by decide, by decide, by decide, by decide, by decide⟩

/-- Scenario S7 with index 3 flipped; and generator `"100"` (V-CRC-14) at the last undetected index and
the first detected one. -/
theorem witness_SingleBitErrorDetection :
    idleState.phase = .idle ∧
    (CrcInputsGood badFrame ∧ seqA badFrame = flipAt (bits "101110") 3 ∧ 2 ≤ (seqB badFrame).count true ∧
      true ∉ mod2div (bits "101110") 6 (seqB badFrame) 4) ∧
    (CrcInputsGood (crcFields (bits "10000") (bits "100")) ∧
      CrcInputsGood (crcFields (bits "10110") (bits "100")) ∧
      seqA (crcFields (bits "10000") (bits "100")) = flipAt (bits "10100") 2 ∧
      seqA (crcFields (bits "10110") (bits "100")) = flipAt (bits "10100") 3 ∧
      (seqB (crcFields (bits "10000") (bits "100"))).count true = 1 ∧
      true ∉ mod2div (bits "10100") 5 (bits "100") 3) :=
  ⟨rfl, ⟨badFrame_good, by decide⟩, ⟨by decide, by decide, by decide⟩, ⟨by decide, by decide, by decide⟩,
    by decide⟩

/-- Generator `"1000"` (V-CRC-13) and generator `"1"` (V-CRC-05) with a frame of one bit. -/
theorem witness_DegenerateGenerators :
    idleState.phase = .idle ∧ 4 ≤ (bits "1011").length ∧
    (CrcInputsGood (crcFields (bits "1011011") (bits "1000")) ∧
      seqB (crcFields (bits "1011011") (bits "1000")) = true :: zeros 3) ∧
    ((crcFields (bits "0") (bits "1")).lenb = 1 ∧
      (crcFields (bits "0") (bits "1")).seqb.testBit 0 = true ∧ 1 ≤ (crcFields (bits "0") (bits "1")).lena) :=
  ⟨rfl, by decide, ⟨⟨by decide, by decide, by decide⟩, by decide⟩, by decide⟩

/-! #### The Hamming unit -/

/-- Both sides of the predicate at its boundary, `2^4 = 16` (V-HAM-03). -/
theorem witness_HamValAnswersPredicate :
    idleState.phase = .idle ∧ 2 ^ 4 ≥ 11 + 4 + 1 ∧ ¬ (2 ^ 4 ≥ 12 + 4 + 1) := by decide
theorem witness_WideRedundancyAlwaysSuffices :
    255 < 2 ^ Config.small.iw ∧ 9 < 2 ^ Config.small.iw ∧ Config.small.iw + 1 ≤ 9 := by decide
theorem witness_PowersOfTwoAreCounted : isPow2 8 = true ∧ isPow2 7 = false ∧ parityCount 7 = 3 ∧
    parityCount 8 = 4 := by decide
theorem witness_ParityAndPayloadPositions :
    parityPositions 8 = [1, 2, 4, 8] ∧ payloadPositions 7 = [3, 5, 6, 7] := by decide
theorem witness_SyndromeIsXorOfSetPositions :
    (bits "011000100010").length = 12 ∧ syndrome (bits "011000100010") 12 = 13 ∧ 15 ≤ Config.small.lmax := by
  decide

/-- Layout-consistent sizes with the syndrome 0, at the last position, and just outside; a wrong length;
and a wrong payload length. -/
theorem witness_HamDecAnswersDecode :
    idleState.phase = .idle ∧
    (LayoutConsistent 12 8 ∧ syndrome (bits "011010110010") 12 = 0 ∧
      syndrome (bits "011010110011") 12 = 12 ∧ 12 < syndrome (bits "011000100010") 12) ∧
    ((decFields (bits "0110011") 8 4).lena ≠ 8 ∧ LayoutConsistent 8 4) ∧ ¬ LayoutConsistent 7 3 := by
  unfold LayoutConsistent; decide
theorem witness_FailedHamCheckReadsNoBlockBit :
    (decFields (bits "0110011") 7 3).lena = (decFields (bits "1111111") 7 3).lena ∧
    (decFields (bits "0110011") 7 3).lena = 7 ∧ ¬ LayoutConsistent 7 3 ∧ ¬ LayoutConsistent 7 8 ∧
    (Instr.hamDec ⟨15, 0, 16, 11, 0, 0⟩).wf Config.small = true ∧ Config.small.lmax < 16 := by
  unfold LayoutConsistent; decide
theorem witness_PayloadIsNonParityBits : isPow2 7 = false ∧ 7 - parityCount 7 - 1 = 3 ∧ isPow2 3 = false := by
  decide

/-- V-HAM-06. -/
theorem witness_UniqueCodeWordForPayload :
    idleState.phase = .idle ∧ LayoutConsistent 7 4 ∧ (bits "1011").length = 4 ∧
    IsCodeWord (bits "0110011") 7 ∧ payload (bits "0110011") 7 = bits "1011" ∧
    seqA (decFields (bits "0110011") 7 4) = bits "0110011" := by
  unfold IsCodeWord LayoutConsistent; decide
/-- The last position flipped. -/
theorem witness_SingleErrorIsCorrected :
    idleState.phase = .idle ∧ LayoutConsistent 7 4 ∧ IsCodeWord (bits "0110011") 7 ∧
    seqA (decFields (bits "0110010") 7 4) = flipAt (bits "0110011") (7 - 1) := by
  unfold IsCodeWord LayoutConsistent; decide
/-- The code word of V-HAM-09 with three positions flipped whose xor is 0, with two whose xor lies in the
block, and with two whose xor lies outside; and two positions at the ends of a block. -/
theorem witness_SeveralErrorsAreNotCorrected :
    idleState.phase = .idle ∧ LayoutConsistent 12 8 ∧ IsCodeWord (bits "011010110010") 12 ∧
    ([1, 2, 3].Nodup ∧ 1 ^^^ 2 ^^^ 3 = 0 ∧ seqA (decFields (bits "100010110010") 12 8) =
      [1, 2, 3].foldl (fun B q => flipAt B (q - 1)) (bits "011010110010")) ∧
    ([3, 5].Nodup ∧ 3 ^^^ 5 ≤ 12 ∧ seqA (decFields (bits "010000110010") 12 8) =
      [3, 5].foldl (fun B q => flipAt B (q - 1)) (bits "011010110010")) ∧
    ([5, 8].Nodup ∧ 12 < 5 ^^^ 8 ∧ seqA (decFields (bits "011000100010") 12 8) =
      [5, 8].foldl (fun B q => flipAt B (q - 1)) (bits "011010110010")) ∧ 1 < 12 := by
  unfold IsCodeWord LayoutConsistent; decide
/-- A full block, and a length with syndromes outside it. -/
theorem witness_WhenSyndromeLeavesTheBlock :
    idleState.phase = .idle ∧ 7 = 2 ^ parityCount 7 - 1 ∧ (2 < 3 ∧ 3 < 2 ^ parityCount 2) ∧
    syndrome (bits "11") 2 = 3 := by decide
theorem witness_LayoutImpliesRedundancy :
    LayoutConsistent 15 11 ∧ Answers (.hamDec (decFields (bits "0110011") 7 4))
      (hamDec (decFields (bits "0110011") 7 4)) ∧
    (hamDec (decFields (bits "0110011") 7 4)).status ≠ .invalidInput ∧
    (⟨0, 0, 4, 3, 0, 0⟩ : Fields).y = 7 - 4 :=
  ⟨by unfold LayoutConsistent; decide, answers_hamDec _, by decide, rfl⟩
theorem witness_InvalidConfigurationIsNeverDecoded :
    idleState.phase = .idle ∧ ¬ (2 ^ (7 - 5) ≥ 5 + (7 - 5) + 1) ∧ ¬ (2 ^ (7 - 9) ≥ 9 + (7 - 9) + 1) := by
  decide

/-! #### Responses of all commands -/

theorem witness_ReservedOpcodesAnswerIllegalOp :
    idleState.phase = .idle ∧ Instr.reserved7 ∈ [Instr.reserved0, Instr.reserved6, Instr.reserved7] :=
  ⟨rfl, by simp⟩
theorem witness_EveryCauseOfAnError :
    Answers (.hamDec (decFields (bits "11") 2 0)) (hamDec (decFields (bits "11") 2 0)) ∧
    (hamDec (decFields (bits "11") 2 0)).status = .uncorrectablePosition :=
  ⟨answers_hamDec _, by decide⟩
theorem witness_ErrorResponseCarriesNoResult :
    idleState.phase = .idle ∧ ∃ t, exec (.crcVfyx badFrame) idleState = .next t ∧ t.rsp.status ≠ .ok :=
  ⟨rfl, _, answers_crcVfyx badFrame idleState rfl, by decide⟩
theorem witness_UndefinedResponseFieldsAreZero :
    Answers (.hamDec (decFields (bits "0110010") 7 4)) (hamDec (decFields (bits "0110010") 7 4)) ∧
    (hamDec (decFields (bits "0110010") 7 4)).ccnt = 1 := ⟨answers_hamDec _, by decide⟩
theorem witness_IgnoredBitsHaveNoEffect :
    AgreeOnRead (.crcVfyx ⟨6, 4, 0, 0, 0x5, 0xB⟩) (.crcVfyx ⟨6, 4, 0xAB, 5, 0x7FC5, 0xB⟩) ∧
    Answers (.crcVfyx ⟨6, 4, 0, 0, 0x5, 0xB⟩) (crcVfyx ⟨6, 4, 0, 0, 0x5, 0xB⟩) ∧
    AgreeOnRead (.hamVal ⟨0, 0, 1, 4, 0, 0⟩) (.hamVal ⟨9, 9, 1, 4, 9, 9⟩) ∧
    AgreeOnRead (.hamDec ⟨2, 0, 2, 0, 3, 0⟩) (.hamDec ⟨2, 7, 2, 0, 7, 7⟩) ∧
    AgreeOnRead (.reserved0 ⟨0, 0, 0, 0, 0, 0⟩) (.reserved0 ⟨1, 1, 1, 1, 1, 1⟩) := by
  refine ⟨?_, answers_crcVfyx _, ?_⟩ <;> simp only [AgreeOnRead, AgreeOnRead.AgreeOnCrc, SameBitsBelow] <;>
    decide
theorem witness_ResponseDependsOnCommandAlone :
    idleState.phase = .idle ∧ ∃ t, exec (.reserved6 goodFrame) idleState = .next t :=
  ⟨rfl, _, answers_reserved6 goodFrame idleState rfl⟩
theorem witness_ResponseFitsItsWord :
    (Instr.crcVfyx goodFrame).wf Config.small = true ∧ Answers (.crcVfyx goodFrame) (crcVfyx goodFrame) :=
  ⟨by decide, answers_crcVfyx goodFrame⟩
theorem witness_CommandsChangeOnlyPhaseAndResponse : idleState.phase = .idle ∧ doneState.phase = .done :=
  ⟨rfl, rfl⟩

/-! #### Transitions and runs -/

/-- The word `0x205804`, HAM.VAL 11, 4, at a free port, and at one where a response waits. -/
def issuing : State := { idleState with cmds := [0x205804], sched := [.issue] }
def taking : State := { doneState with sched := [.take] }
def resetting : State := { doneState with sched := [.reset] }

theorem decode_0x205804 : decode Config.small 0x205804 = .ok (.hamVal ⟨0, 0, 11, 4, 0, 0⟩) := rfl

theorem witness_StepRunsTheDecodedCommand :
    issuing.phase = .idle ∧ issuing.cmds = 0x205804 :: [] ∧ issuing.sched = .issue :: [] ∧
    decode issuing.params 0x205804 = .ok (.hamVal ⟨0, 0, 11, 4, 0, 0⟩) := ⟨rfl, rfl, rfl, rfl⟩
theorem witness_IssueWaitsForIdle :
    (issuing.sched = .issue :: [] ∧ issuing.phase = .idle ∧ issuing.cmds = 0x205804 :: [] ∧
      decode issuing.params 0x205804 = .ok (.hamVal ⟨0, 0, 11, 4, 0, 0⟩)) ∧
    (({ doneState with sched := [.issue] } : State).sched = .issue :: [] ∧ doneState.phase = .done) ∧
    ({ idleState with sched := [.issue] } : State).sched = .issue :: [] ∧ idleState.cmds = [] :=
  ⟨⟨rfl, rfl, rfl, rfl⟩, ⟨rfl, rfl⟩, rfl, rfl⟩
theorem witness_TakeDeliversTheResponse :
    (taking.sched = .take :: [] ∧ taking.phase = .done) ∧
    (({ idleState with sched := [.take] } : State).sched = .take :: [] ∧ idleState.phase = .idle) ∧
    ∃ v, step { doneState with sched := [.issue] } = .next v ∧ v.phase = .done :=
  ⟨⟨rfl, rfl⟩, ⟨rfl, rfl⟩, _, rfl, rfl⟩
theorem witness_ResetDiscardsTheResponse : resetting.sched = .reset :: [] := rfl
theorem witness_ResetStateAcceptsACommand :
    decodeTableWord 8 0xFD = some (.hamDec ⟨31, 0, 0, 0, 0, 0⟩) := by decide

/-- A step of each kind: nothing asked for, each change of the phase, and a held command. -/
theorem witness_OnlyTransitionsChangeCore :
    step idleState = .next idleState ∧
    (∃ t, step issuing = .next t ∧ issuing.phase = .idle ∧ t.phase = .done) ∧
    (∃ t, step taking = .next t ∧ taking.phase = .done ∧ t.phase = .idle) ∧
    (∃ t, step { doneState with sched := [.issue] } = .next t ∧ doneState.phase = .done ∧ t.phase = .done) :=
  ⟨rfl, ⟨_, rfl, rfl, rfl⟩, ⟨_, rfl, rfl, rfl⟩, ⟨_, rfl, rfl, rfl⟩⟩
theorem witness_StepFrame : (∃ t, step issuing = .next t) ∧ ∃ t, step taking = .next t := ⟨⟨_, rfl⟩, _, rfl⟩
theorem witness_EveryCommandGetsAResponse : idleState.phase = .idle := rfl

/-- A state with a response waiting that meets the invariant, and a step from it. -/
theorem taking_inv : taking.Inv where
  idle h := absurd h (by decide)
  pending _ := by
    refine ⟨.hamVal ⟨0, 0, 11, 4, 0, 0⟩, rfl, by decide, fun s hs => ?_⟩
    have : hamVal ⟨0, 0, 11, 4, 0, 0⟩ = taking.rsp := by decide
    simp [exec, execHamVal, issue, hs, State.holdResponse, this]
  delivered d hd := by simp [taking, doneState, idleState, State.reset] at hd
theorem witness_StepKeepsTheInvariant : taking.Inv ∧ ∃ t, step taking = .next t := ⟨taking_inv, _, rfl⟩

/-- The runs of three steps: a held command, and a command issued again after RESET. -/
theorem witness_HeldCommandIsNotLost :
    let s : State := { doneState with cmds := [0x205804], sched := [.issue, .take, .issue] }
    s.phase = .done ∧ s.cmds = 0x205804 :: [] ∧ s.sched = .issue :: .take :: .issue :: [] ∧
      decode s.params 0x205804 = .ok (.hamVal ⟨0, 0, 11, 4, 0, 0⟩) := ⟨rfl, rfl, rfl, rfl⟩
theorem witness_ReissueAfterResetGivesTheSameResponse :
    let s : State := { idleState with cmds := [0x205804, 0x205804], sched := [.issue, .reset, .issue] }
    s.phase = .idle ∧ s.cmds = 0x205804 :: 0x205804 :: [] ∧ s.sched = .issue :: .reset :: .issue :: [] ∧
      decode s.params 0x205804 = .ok (.hamVal ⟨0, 0, 11, 4, 0, 0⟩) := ⟨rfl, rfl, rfl, rfl⟩

/-- The state `taking` with an error waiting instead, and its command noted. -/
def takingError : State := { taking with rsp := illegalOp, inFlight := some (.reserved6 goodFrame) }
theorem takingError_inv : takingError.Inv where
  idle h := absurd h (by decide)
  pending _ := ⟨.reserved6 goodFrame, rfl, by decide, answers_reserved6 goodFrame⟩
  delivered d hd := by simp [takingError, taking, doneState, idleState, State.reset] at hd
/-- Both states meet the invariant. -/
theorem witness_TakenErrorLeavesNoTrace :
    taking.Inv ∧ takingError.Inv ∧ taking.phase = .done ∧ taking.sched = .take :: [] ∧
    taking.rsp.status = .ok ∧ illegalOp.status ≠ .ok ∧
    (∃ t, step taking = .next t) ∧ ∃ t, step takingError = .next t :=
  ⟨taking_inv, takingError_inv, rfl, rfl, rfl, by decide, ⟨_, rfl⟩, _, rfl⟩

/-- The codes at the ends of the tables of R78, and the first reserved ones. -/
theorem witness_ResponseCodeValues :
    statusOfCode 4 = some .configurationInvalid ∧ detailOfCode 5 = some .layoutMismatch ∧
    statusOfCode 5 = none ∧ detailOfCode 6 = none := by decide

/-- A host that never stops: ISSUE of the all-zero word (R75) whenever the port is free, else TAKE. -/
def busyHost (_ : Nat) (t : State) : Option Move := if t.phase = .idle then some (.issue 0) else some .take
theorem decode_zero (p : Params) : decode p 0 = .ok (.reserved0 ⟨0, 0, 0, 0, 0, 0⟩) := by
  simp [decode, fitsWord, bitField, instrOfOp, fieldsOfWord]
theorem witness_EveryHostChoiceIsARun :
    (∀ n t m, busyHost n t = some m → m.enabled t) ∧
    (∀ n t, busyHost n t = none → busyHost (n + 1) t = none) ∧ (∀ n t, busyHost n t ≠ none) := by
  refine ⟨fun n t m h => ?_, fun n t h => h, fun n t h => ?_⟩ <;> unfold busyHost at h <;> split at h
  · next hp => cases h; exact ⟨hp, _, decode_zero _⟩
  · next hp => cases h; cases hq : t.phase <;> simp_all [Move.enabled]
  · cases h
  · cases h

/-- The run ISSUE (HAM.VAL 11, 4), TAKE, and no more. -/
def shortHost : Nat → Option Move
  | 0 => some (.issue 0x205804)
  | 1 => some .take
  | _ + 2 => none
def shortRun : Nat → State
  | 0 => idleState
  | 1 => doneState
  | _ + 2 => doneState.takeRsp
theorem shortRun_isRun : IsRun shortHost shortRun where
  enabled
    | 0, _, rfl => ⟨rfl, _, decode_0x205804⟩
    | 1, _, rfl => rfl
  next
    | 0, _, rfl => rfl
    | 1, _, rfl => rfl
  stops
    | _ + 2, _ => ⟨rfl, rfl⟩
theorem witness_RunDeliversPairs :
    IsRun shortHost shortRun ∧ (shortRun 0).quiescent = true ∧ shortHost 1 = some .take ∧ shortHost 0 ≠ some .take :=
  ⟨shortRun_isRun, rfl, rfl, by decide⟩

end Sys2Proof.Tests
end

section
/-! SUPPORT. The arithmetic the rules use (spec 00_scope.md R14, R15): the bounded form of the redundancy
comparison, and the powers of two in a range with their number. -/

namespace Sys2Proof.Machine

/-! ### The bounded comparison (R14) -/

/-- Two `w`-bit operands sum to less than `2^(w+1)`, the increment included. -/
theorem add_add_one_lt_two_pow_succ {a r w : Nat} (ha : a < 2 ^ w) (hr : r < 2 ^ w) :
    a + r + 1 < 2 ^ (w + 1) := by
  rw [Nat.pow_succ]; omega

/-- A redundancy count above the operand width needs no comparison: its power is above every sum. -/
theorem redundancyOk_of_width_lt {a r w : Nat} (ha : a < 2 ^ w) (hr : r < 2 ^ w) (hw : w + 1 ≤ r) :
    redundancyOk a r = true :=
  (redundancyOk_iff a r).2 <|
    (add_add_one_lt_two_pow_succ ha hr).le.trans (Nat.pow_le_pow_right Nat.two_pos hw)

/-- Settles O22: the sum is bounded by the operand width, and a wide count has a power above the bound. -/
theorem wideRedundancyAlwaysSuffices : Obligations.WideRedundancyAlwaysSuffices := fun _ a r ha hr =>
  ⟨add_add_one_lt_two_pow_succ ha hr, redundancyOk_of_width_lt ha hr, redundancyOk_iff a r⟩

/-! ### Powers of two and their count (R15) -/

theorem isPow2_iff_exists (q : Nat) : isPow2 q = true ↔ ∃ k, q = 2 ^ k := by
  constructor
  · exact fun h => ⟨q.log2, (isPow2_iff_log2 q).1 h⟩
  · rintro ⟨k, rfl⟩
    exact isPow2_two_pow k

theorem mem_parityPositions {n q : Nat} : q ∈ parityPositions n ↔ q ≤ n ∧ ∃ k, q = 2 ^ k := by
  rw [parityPositions, List.mem_filter, mem_positions, isPow2_iff_exists]
  constructor
  · rintro ⟨⟨-, hn⟩, hk⟩
    exact ⟨hn, hk⟩
  · rintro ⟨hn, k, rfl⟩
    exact ⟨⟨Nat.two_pow_pos k, hn⟩, k, rfl⟩

theorem nodup_parityPositions (n : Nat) : (parityPositions n).Nodup :=
  List.Nodup.filter _ List.nodup_range'

/-- A power of two in the range is `2^k` with `k` at most the logarithm of the range's end. -/
theorem toFinset_parityPositions {n : Nat} (hn : 1 ≤ n) :
    (parityPositions n).toFinset = (Finset.range (Nat.log 2 n + 1)).image (2 ^ ·) := by
  have exponent (k : Nat) : 2 ^ k ≤ n ↔ k < Nat.log 2 n + 1 := by
    rw [Nat.lt_succ_iff, Nat.le_log_iff_pow_le Nat.one_lt_two (by omega)]
  ext q
  rw [List.mem_toFinset, mem_parityPositions, Finset.mem_image]
  constructor
  · rintro ⟨hq, k, rfl⟩
    exact ⟨k, Finset.mem_range.2 ((exponent k).1 hq), rfl⟩
  · rintro ⟨k, hk, rfl⟩
    exact ⟨(exponent k).2 (Finset.mem_range.1 hk), k, rfl⟩

theorem parityCount_eq_card_toFinset (n : Nat) : parityCount n = (parityPositions n).toFinset.card :=
  (List.toFinset_card_of_nodup (nodup_parityPositions n)).symm

theorem parityCount_eq_log_add_one {n : Nat} (hn : 1 ≤ n) : parityCount n = Nat.log 2 n + 1 := by
  rw [parityCount_eq_card_toFinset, toFinset_parityPositions hn,
    Finset.card_image_of_injective _ (Nat.pow_right_injective le_rfl), Finset.card_range]

/-- The set that is counted, with the exponent bounded by the range's end as `k < 2^k` allows. -/
theorem toFinset_parityPositions_eq_filter (n : Nat) :
    (parityPositions n).toFinset = (Finset.Icc 1 n).filter fun q => ∃ k ≤ n, q = 2 ^ k := by
  ext q
  rw [List.mem_toFinset, mem_parityPositions, Finset.mem_filter, Finset.mem_Icc]
  constructor
  · rintro ⟨hq, k, rfl⟩
    exact ⟨⟨Nat.two_pow_pos k, hq⟩, k, Nat.lt_two_pow_self.le.trans hq, rfl⟩
  · rintro ⟨⟨-, hq⟩, k, -, rfl⟩
    exact ⟨hq, k, rfl⟩

/-- Settles O23: the parity positions are the powers of two in the range, and the exponents of those are
the numbers up to the logarithm of its end. -/
theorem powersOfTwoAreCounted : Obligations.PowersOfTwoAreCounted := by
  refine ⟨isPow2_iff_exists, rfl, rfl, fun n => ?_, fun _ hn => parityCount_eq_log_add_one hn⟩
  rw [parityCount_eq_card_toFinset, toFinset_parityPositions_eq_filter]

end Sys2Proof.Machine
end

section
/-! SUPPORT. The two ports (spec 10_state.md R29 to R33): the one response of a command, one equation for
each transition the host asks for, what a completed step can have done, and the rules settled from them. -/

namespace Sys2Proof.Machine

/-! ### The response of a command (R32) -/

/-- Every command answers some response, and it is the forming of that response in every state. -/
theorem exists_answer (i : Instr) : ∃ r, Answers i r ∧ ∀ s, exec i s = issue r s :=
  (exec_eq_issue i).imp fun r hr => ⟨(answers_iff hr r).2 rfl, hr⟩

/-- Settles O40: a command only ever forms one response, and at a free port that response is held. -/
theorem responseDependsOnCommandAlone : Obligations.ResponseDependsOnCommandAlone := by
  intro i
  obtain ⟨r, ha, hr⟩ := exists_answer i
  refine ⟨r, ha, fun s t hs ht => ?_, fun r' => (answers_iff hr r').1⟩
  cases (ha s hs).symm.trans ht
  rfl

/-- Settles O42: the forming of a response holds it when the port is free, and changes nothing when not. -/
theorem commandsChangeOnlyPhaseAndResponse : Obligations.CommandsChangeOnlyPhaseAndResponse := by
  intro i s
  obtain ⟨r, -, hr⟩ := exists_answer i
  rw [hr]
  rcases issue_cases r s with ⟨hp, h⟩ | ⟨hp, h⟩
  · exact ⟨_, h, rfl, rfl, rfl, rfl, rfl, rfl, rfl, fun hd => by rw [hp] at hd; cases hd⟩
  · exact ⟨s, h, rfl, rfl, rfl, rfl, rfl, rfl, hp, fun _ => rfl⟩

/-! ### One equation per transition asked for -/

section
variable {s : State} {ss : List HostStep} {w : Nat} {ws : List Nat} {i : Instr} {r : Response}

theorem State.popSched_of_no_sched (hs : s.sched = []) : s.popSched = s := by
  cases s
  cases hs
  rfl

theorem State.popSched_of_sched {a : HostStep} (hs : s.sched = a :: ss) :
    s.popSched = { s with sched := ss } := by
  simp [State.popSched, hs]

theorem State.takeRsp_delivered_of_done (hp : s.phase = .done) :
    s.takeRsp.delivered = s.delivered ++ [⟨s.inFlight, s.rsp⟩] := by
  rw [State.takeRsp_done hp]

theorem State.takeRsp_inFlight_of_done (hp : s.phase = .done) : s.takeRsp.inFlight = none := by
  rw [State.takeRsp_done hp]

/-- ISSUE of a command word at a free port is the command's execution. -/
theorem step_issue_of_decode (hs : s.sched = .issue :: ss) (hp : s.phase = .idle)
    (hc : s.cmds = w :: ws) (hd : decode s.params w = .ok i) :
    step s = exec i { s with cmds := ws, sched := ss, inFlight := some i } := by
  simp [step, portCommand, State.popSched_of_sched hs, State.accept, hs, hp, hc, hd]

/-- ISSUE of a command word at a free port leaves the command's response waiting (R29). -/
theorem step_issue_of_answers (hs : s.sched = .issue :: ss) (hp : s.phase = .idle)
    (hc : s.cmds = w :: ws) (hd : decode s.params w = .ok i) (ha : Answers i r) :
    step s = .next { s with
      phase := .done, rsp := r, cmds := ws, sched := ss, inFlight := some i } := by
  exact (step_issue_of_decode hs hp hc hd).trans (ha _ hp)

/-- ISSUE while a response waits: the command is held at the port (R29). -/
theorem step_issue_of_done (hs : s.sched = .issue :: ss) (hp : s.phase = .done) :
    step s = .next { s with sched := ss } := by
  simp [step, portCommand, State.popSched_of_sched hs, hs, hp]

/-- ISSUE with no command presented. -/
theorem step_issue_of_no_command (hs : s.sched = .issue :: ss) (hp : s.phase = .idle)
    (hc : s.cmds = []) : step s = .next { s with sched := ss } := by
  simp [step, portCommand, State.popSched_of_sched hs, hs, hp, hc]

theorem step_take (hs : s.sched = .take :: ss) :
    step s = .next (State.takeRsp { s with sched := ss }) := by
  simp [step, State.popSched_of_sched hs, hs]

theorem step_reset (hs : s.sched = .reset :: ss) :
    step s = .next (State.resetCore { s with sched := ss }) := by
  simp [step, State.popSched_of_sched hs, hs]

end

/-- Settles O43: it is the equation of an ISSUE that is let in. -/
theorem stepRunsTheDecodedCommand : Obligations.StepRunsTheDecodedCommand :=
  fun _ _ _ _ _ hp hc hs hd => step_issue_of_decode hs hp hc hd

/-- Settles O44: the three equations of ISSUE, at a free port, at a port held, and at one with no command. -/
theorem issueWaitsForIdle : Obligations.IssueWaitsForIdle := by
  intro s ss hs
  refine ⟨fun w ws i hp hc hd => ?_, step_issue_of_done hs, step_issue_of_no_command hs⟩
  obtain ⟨r, ha, -⟩ := exists_answer i
  exact ⟨r, ha, step_issue_of_answers hs hp hc hd ha⟩

/-- Settles O46: the equation of RESET, which leaves the deliveries and the host's lists as they are. -/
theorem resetDiscardsTheResponse : Obligations.ResetDiscardsTheResponse :=
  fun _ _ hs => ⟨_, step_reset hs, rfl, rfl, rfl, rfl, rfl, rfl⟩

/-! ### What a completed step can have done -/

/-- Everything a step that completes can have done: only used up a request, if there was one; let in the
command on the port and answered it; delivered the response that waited; or reset the port. -/
theorem step_next_cases {s t : State} (h : step s = .next t) :
    t = s.popSched ∨
    (∃ w ws i r, s.sched.head? = some .issue ∧ s.phase = .idle ∧ s.cmds = w :: ws ∧
      decode s.params w = .ok i ∧ Answers i r ∧ t = (s.popSched.accept i).holdResponse r) ∨
    (s.sched.head? = some .take ∧ s.phase = .done ∧ t = s.popSched.takeRsp) ∨
    (s.sched.head? = some .reset ∧ t = s.popSched.resetCore) := by
  rcases step_cases s with ⟨hs, hn⟩ | ⟨_, -, -, hn⟩ | ⟨_, _, _, _, -, -, -, -, hn⟩ |
    ⟨_, w, ws, i, hs, hp, hc, hd, hn⟩ | ⟨_, hs, hn⟩ | ⟨_, hs, hn⟩
  · cases hn.symm.trans h
    exact .inl (State.popSched_of_no_sched hs).symm
  · cases hn.symm.trans h
    exact .inl rfl
  · cases hn.symm.trans h
  · obtain ⟨r, ha, -⟩ := exists_answer i
    cases (hn.trans (ha (s.popSched.accept i) hp)).symm.trans h
    exact .inr (.inl ⟨w, ws, i, r, by simp [hs], hp, hc, hd, ha, rfl⟩)
  · cases hn.symm.trans h
    cases hp : s.phase with
    | idle => exact .inl (State.takeRsp_idle hp)
    | done => exact .inr (.inr (.inl ⟨by simp [hs], rfl, rfl⟩))
  · cases hn.symm.trans h
    exact .inr (.inr (.inr ⟨by simp [hs], rfl⟩))

/-- A response that waits before and after a step is the same response (R30). -/
theorem step_rsp_stable {s t : State} (h : step s = .next t) (hs : s.phase = .done)
    (ht : t.phase = .done) : t.rsp = s.rsp := by
  rcases step_next_cases h with rfl | ⟨_, _, _, _, -, hp, -⟩ | ⟨-, -, rfl⟩ | ⟨-, rfl⟩
  · rfl
  · simp [hp] at hs
  · simp at ht
  · simp at ht

/-- Settles O45: the equation of TAKE in each phase, and the stability of a response that waits. -/
theorem takeDeliversTheResponse : Obligations.TakeDeliversTheResponse := by
  intro s ss hs
  refine ⟨fun hp => ⟨_, step_take hs, ?_⟩, fun hp => ?_, fun _ _ => step_rsp_stable⟩
  · exact ⟨State.takeRsp_phase _, State.takeRsp_delivered_of_done hp, State.takeRsp_inFlight_of_done hp,
      State.takeRsp_params _, State.takeRsp_cmds _, State.takeRsp_sched _⟩
  · exact (step_take hs).trans (congrArg _ (State.takeRsp_idle hp))

/-- Settles O49: in each of the things a completed step can have done, what it took and delivered. -/
theorem stepFrame : Obligations.StepFrame := by
  intro s t h
  rcases step_next_cases h with rfl | ⟨_, _, _, _, -, hp, -, -, -, rfl⟩ | ⟨-, hp, rfl⟩ | ⟨-, rfl⟩
  · exact ⟨rfl, rfl, .inl rfl, .inl rfl⟩
  · exact ⟨rfl, rfl, .inr ⟨hp, rfl, rfl⟩, .inl rfl⟩
  · exact ⟨State.takeRsp_params _, State.takeRsp_sched _, .inl (State.takeRsp_cmds _),
      .inr ⟨hp, State.takeRsp_phase _, State.takeRsp_delivered_of_done hp⟩⟩
  · exact ⟨rfl, rfl, .inl rfl, .inl rfl⟩

/-- Settles O53: the three steps are ISSUE while a response waits, TAKE, and ISSUE at the port that TAKE
freed, where the command still stands. -/
theorem heldCommandIsNotLost : Obligations.HeldCommandIsNotLost := by
  intro s w ws ss i hp hc hs hd
  obtain ⟨r, ha, -⟩ := exists_answer i
  let t₁ : State := { s with sched := .take :: .issue :: ss }
  let t₂ : State := State.takeRsp { s with sched := .issue :: ss }
  have h₁ : step s = .next t₁ := step_issue_of_done hs hp
  have h₂ : step t₁ = .next t₂ := step_take rfl
  have hc₂ : t₂.cmds = w :: ws := (State.takeRsp_cmds _).trans hc
  have hd₂ : decode t₂.params w = .ok i := by rw [State.takeRsp_params]; exact hd
  have h₃ := step_issue_of_answers (State.takeRsp_sched _) (State.takeRsp_phase _) hc₂ hd₂ ha
  exact ⟨t₁, t₂, _, r, h₁, h₂, h₃, hc, rfl, hc₂, ha, rfl, rfl, rfl, rfl,
    State.takeRsp_delivered_of_done hp⟩

/-! ### After reset (R33) -/

theorem decodeTableWord_eq_some_iff (nbits w : Nat) (i : Instr) :
    decodeTableWord nbits w = some i ↔ decode Config.recommended (lowBits nbits w) = .ok i := by
  unfold decodeTableWord
  cases decode Config.recommended (lowBits nbits w) <;> simp

/-- Settles O47: the state after reset is free, so ISSUE of the command presented to it is let in. -/
theorem resetStateAcceptsACommand : Obligations.ResetStateAcceptsACommand := by
  refine ⟨rfl, rfl, fun nbits w i h => ?_⟩
  have hd := (decodeTableWord_eq_some_iff nbits w i).1 h
  obtain ⟨r, ha, -⟩ := exists_answer i
  have hn := step_issue_of_answers (s := State.reset.withFetchWord nbits w) rfl rfl rfl hd ha
  exact ⟨r, _, ha, hn, rfl, rfl, rfl, rfl, rfl⟩

/-- A free port of a host that has noted and taken nothing meets the invariant, whatever stands in `RSP`. -/
theorem State.inv_of_no_record {s : State} (hp : s.phase = .idle) (hf : s.inFlight = none)
    (hd : s.delivered = []) : s.Inv where
  idle _ := hf
  pending h := by rw [hp] at h; cases h
  delivered d h := by rw [hd] at h; cases h

/-- Settles O51: the state after reset is free and its host has no record yet. -/
theorem invariantHoldsAtReset : Obligations.InvariantHoldsAtReset :=
  State.inv_of_no_record rfl rfl rfl

end Sys2Proof.Machine
end

section
/-! SUPPORT. Sequences in their fields and the record of a run (spec 20_memory.md R53, R58): the operands
read bit by bit, the result bits past `OLEN`, and the invariant kept by each thing a step can do. -/

namespace Sys2Proof.Machine

/-! ### Sequences and their fields (R53) -/

section
variable (f : Fields)

@[simp] theorem length_seqA : (seqA f).length = f.lena := length_ofField _ _

@[simp] theorem length_seqB : (seqB f).length = f.lenb := length_ofField _ _

theorem bitAt_seqA {i : Nat} (hi : i < f.lena) : bitAt (seqA f) i = f.seqa.testBit i := by
  simp [seqA, bitAt_ofField, hi]

theorem bitAt_seqB {i : Nat} (hi : i < f.lenb) : bitAt (seqB f) i = f.seqb.testBit i := by
  simp [seqB, bitAt_ofField, hi]

theorem posAt_seqA {q : Nat} (h₁ : 1 ≤ q) (h₂ : q ≤ f.lena) :
    posAt (seqA f) q = f.seqa.testBit (q - 1) :=
  bitAt_seqA f (by omega)

end

section
variable {f g : Fields}

theorem seqA_congr (hl : f.lena = g.lena) (h : SameBitsBelow f.lena f.seqa g.seqa) : seqA f = seqA g := by
  rw [seqA, seqA, ← hl]
  exact ofField_congr h

theorem seqB_congr (hl : f.lenb = g.lenb) (h : SameBitsBelow f.lenb f.seqb g.seqb) : seqB f = seqB g := by
  rw [seqB, seqB, ← hl]
  exact ofField_congr h

end

/-! ### The result bits of each command lie below `OLEN` (R53)

An outcome with no result sequence has `OBITS` zero; the others carry a sequence of `OLEN` elements. -/

theorem toField_lt_of_length {S : BitSeq} {n : Nat} (h : S.length = n) : toField S < 2 ^ n :=
  h ▸ toField_lt S

theorem length_remainder {f : Fields} (h₀ : f.lenb ≠ 0) (h : f.lenb ≤ f.lena) :
    (mod2div (seqA f) f.lena (seqB f) f.lenb).length = f.lenb - 1 := by
  have hR := length_mod2div (D := seqA f) (G := seqB f)
  simp only [length_seqA, length_seqB] at hR
  exact hR (Nat.one_le_iff_ne_zero.2 h₀) h

theorem length_payload_eq_sub_parityCount (B : BitSeq) (n : Nat) :
    (payload B n).length = n - parityCount n := by
  have := length_parity_add_payload n
  rw [length_payload, parityCount]
  omega

section
variable (f : Fields)

theorem crcDiv_obits_lt : (crcDiv f).obits < 2 ^ (crcDiv f).olen := by
  rcases crcDiv_cases f with ⟨-, h⟩ | ⟨-, -, -, h⟩ | ⟨h₀, -, hle, h⟩ <;> rw [h]
  · exact Nat.two_pow_pos 0
  · exact Nat.two_pow_pos 0
  · exact toField_lt_of_length (length_remainder h₀ hle)

theorem crcVfy_obits_lt : (crcVfy f).obits < 2 ^ (crcVfy f).olen := by
  rcases crcVfy_cases f with ⟨-, h⟩ | ⟨-, -, -, h⟩ | ⟨-, -, -, h⟩ <;> rw [h] <;> exact Nat.two_pow_pos 0

theorem crcVfyx_obits_lt : (crcVfyx f).obits < 2 ^ (crcVfyx f).olen := by
  rcases crcVfyx_cases f with ⟨-, h⟩ | ⟨-, -, -, h⟩ | ⟨-, -, -, h⟩ <;> rw [h]
  · exact Nat.two_pow_pos 0
  · exact Nat.two_pow_pos 0
  · split
    · exact Nat.mod_lt _ (Nat.two_pow_pos _)
    · exact Nat.two_pow_pos 0

theorem hamDec_obits_lt : (hamDec f).obits < 2 ^ (hamDec f).olen := by
  rcases hamDec_cases f with ⟨-, h⟩ | ⟨-, -, h⟩ | ⟨-, hm, -, h⟩ | ⟨-, hm, -, -, h⟩ | ⟨-, -, -, h⟩ <;> rw [h]
  · exact Nat.two_pow_pos 0
  · exact Nat.two_pow_pos 0
  · exact toField_lt_of_length ((length_payload_eq_sub_parityCount _ _).trans hm.symm)
  · exact toField_lt_of_length ((length_payload_eq_sub_parityCount _ _).trans hm.symm)
  · exact Nat.two_pow_pos 0

end

theorem Answers.obits_lt {i : Instr} {r : Response} (h : Answers i r) : r.obits < 2 ^ r.olen := by
  cases i with
  | crcDiv f => exact (answers_crcDiv f r).1 h ▸ crcDiv_obits_lt f
  | crcVfy f => exact (answers_crcVfy f r).1 h ▸ crcVfy_obits_lt f
  | crcVfyx f => exact (answers_crcVfyx f r).1 h ▸ crcVfyx_obits_lt f
  | hamVal f => exact (answers_hamVal f r).1 h ▸ Nat.two_pow_pos 0
  | hamDec f => exact (answers_hamDec f r).1 h ▸ hamDec_obits_lt f
  | reserved0 f => exact (answers_reserved0 f r).1 h ▸ Nat.two_pow_pos 0
  | reserved6 f => exact (answers_reserved6 f r).1 h ▸ Nat.two_pow_pos 0
  | reserved7 f => exact (answers_reserved7 f r).1 h ▸ Nat.two_pow_pos 0

/-- Settles O9: the reading of a field bit by bit, its converse for a result, and the bound of every
response's result bits, which leaves no bit at `OLEN` or above. -/
theorem sequenceElementIsFieldBit : Obligations.SequenceElementIsFieldBit := by
  refine ⟨fun f => ⟨length_seqA f, length_seqB f, fun _ => bitAt_seqA f, fun _ => bitAt_seqB f,
      fun _ => posAt_seqA f⟩, fun _ _ => seqA_congr, fun _ _ => seqB_congr, fun O => ?_,
    fun i r ha k hk => ?_⟩
  · exact ⟨fun i _ => testBit_toField O i, fun i hi => (testBit_toField O i).trans (bitAt_of_length_le hi)⟩
  · exact Nat.testBit_lt_two_pow (ha.obits_lt.trans_le (Nat.pow_le_pow_right Nat.two_pos hk))

/-! ### The invariant of a run (R58)

One lemma for each thing a completed step can have done. -/

section
variable {s : State} {i : Instr} {r : Response}

theorem State.Inv.popSched (h : s.Inv) : s.popSched.Inv where
  idle := h.idle
  pending := h.pending
  delivered := h.delivered

/-- The command let in and its response become the pair that waits. -/
theorem State.Inv.accept_holdResponse (h : s.Inv) (hwf : i.wf s.params = true) (ha : Answers i r) :
    ((s.accept i).holdResponse r).Inv where
  idle hp := by cases hp
  pending _ := ⟨i, rfl, hwf, ha⟩
  delivered := h.delivered

/-- The pair that waited becomes the last one delivered. -/
theorem State.Inv.takeRsp (h : s.Inv) (hp : s.phase = .done) : s.takeRsp.Inv where
  idle _ := State.takeRsp_inFlight_of_done hp
  pending hd := by rw [State.takeRsp_phase] at hd; cases hd
  delivered d hd := by
    rw [State.takeRsp_delivered_of_done hp, List.mem_append, List.mem_singleton] at hd
    rw [State.takeRsp_params]
    rcases hd with hd | rfl
    · exact h.delivered d hd
    · exact h.pending hp

/-- The pair that waited is lost, and with it the host's note of its command. -/
theorem State.Inv.resetCore (h : s.Inv) : s.resetCore.Inv where
  idle _ := rfl
  pending hp := by cases hp
  delivered := h.delivered

end

/-- Settles O52: by the cases of a completed step; the command that an ISSUE lets in was decoded from a
word of the port, so it fits its fields. -/
theorem stepKeepsTheInvariant : Obligations.StepKeepsTheInvariant := by
  intro s t hs h
  rcases step_next_cases h with rfl | ⟨w, _, i, r, -, -, -, hd, ha, rfl⟩ | ⟨-, hp, rfl⟩ | ⟨-, rfl⟩
  · exact hs.popSched
  · exact hs.popSched.accept_holdResponse (wf_of_decode hd) ha
  · exact hs.popSched.takeRsp hp
  · exact hs.popSched.resetCore

end Sys2Proof.Machine
end


section
/-! SUPPORT. The packed command and response words (spec 30_encoding.md R70 to R72, R75 to R78). Both are
fields side by side from bit 0 up, so both are the joining of a list of field values along a list of widths,
and its inverse, the splitting of a word, is what the two readers do. -/

namespace Sys2Proof.Machine

/-! ### Words of fields side by side -/

/-- The word whose fields, from bit 0 up, have the widths `ns` and the values `vs`. -/
def joinFields : List Nat → List Nat → Nat
  | n :: ns, v :: vs => v + joinFields ns vs <<< n
  | _, _ => 0

/-- The values of the fields of a word, from bit 0 up, that have the widths `ns`. -/
def splitWord : List Nat → Nat → List Nat
  | [], _ => []
  | n :: ns, w => bitField w 0 n :: splitWord ns (w >>> n)

/-- Each value fits the width of its field. -/
def FitFields (ns vs : List Nat) : Prop := List.Forall₂ (fun n v => v < 2 ^ n) ns vs

theorem bitField_zero (w n : Nat) : bitField w 0 n = w % 2 ^ n := rfl

theorem bitField_shiftRight (w m lo n : Nat) : bitField (w >>> m) lo n = bitField w (m + lo) n := by
  rw [bitField, bitField, Nat.shiftRight_add]

theorem testBit_of_bitField_eq {w lo n v : Nat} (h : bitField w lo n = v) {k : Nat} (hk : k < n) :
    w.testBit (lo + k) = v.testBit k := by
  simp [← h, testBit_bitField, hk]

/-- The lowest field of a word and the rest above it make up the word. -/
theorem bitField_add_shiftRight (w n : Nat) : bitField w 0 n + (w >>> n) <<< n = w := by
  rw [bitField_zero, Nat.shiftLeft_eq, Nat.shiftRight_eq_div_pow]
  exact Nat.mod_add_div' w (2 ^ n)

section
variable {n v : Nat} (hv : v < 2 ^ n) (w : Nat)
include hv

theorem bitField_add_shiftLeft : bitField (v + w <<< n) 0 n = v := by
  rw [bitField_zero, Nat.shiftLeft_eq, Nat.add_mul_mod_self_right, Nat.mod_eq_of_lt hv]

theorem add_shiftLeft_shiftRight : (v + w <<< n) >>> n = w := by
  rw [Nat.shiftLeft_eq, Nat.shiftRight_eq_div_pow, Nat.add_mul_div_right _ _ (Nat.two_pow_pos n),
    Nat.div_eq_of_lt hv, Nat.zero_add]

end

theorem splitWord_joinFields {ns vs : List Nat} (h : FitFields ns vs) :
    splitWord ns (joinFields ns vs) = vs := by
  induction h with
  | nil => rfl
  | cons hv _ ih =>
    rw [joinFields, splitWord, bitField_add_shiftLeft hv, add_shiftLeft_shiftRight hv, ih]

theorem joinFields_lt {ns vs : List Nat} (h : FitFields ns vs) : joinFields ns vs < 2 ^ ns.sum := by
  induction h with
  | nil => exact Nat.one_pos
  | cons hv _ ih =>
    rw [joinFields, List.sum_cons]
    exact Laws.add_shiftLeft_lt hv ih

theorem fitFields_splitWord (ns : List Nat) (w : Nat) : FitFields ns (splitWord ns w) := by
  induction ns generalizing w with
  | nil => exact .nil
  | cons n ns ih => exact .cons (bitField_lt w 0 n) (ih _)

theorem joinFields_splitWord {ns : List Nat} {w : Nat} (h : w < 2 ^ ns.sum) :
    joinFields ns (splitWord ns w) = w := by
  induction ns generalizing w with
  | nil => exact (Nat.lt_one_iff.1 h).symm
  | cons n ns ih =>
    have hw : w >>> n < 2 ^ ns.sum := by
      rw [Nat.shiftRight_eq_div_pow]
      exact Nat.div_lt_of_lt_mul (by rwa [← Nat.pow_add])
    rw [splitWord, joinFields, ih hw, bitField_add_shiftRight]

/-- Reading a word and forming it are inverse: a word of the width of its fields has the values `vs` iff
these fit and the word is theirs. -/
theorem splitWord_eq_iff {ns vs : List Nat} {w : Nat} :
    (w < 2 ^ ns.sum ∧ splitWord ns w = vs) ↔ (joinFields ns vs = w ∧ FitFields ns vs) := by
  constructor
  · rintro ⟨hw, rfl⟩
    exact ⟨joinFields_splitWord hw, fitFields_splitWord ns w⟩
  · rintro ⟨rfl, hv⟩
    exact ⟨joinFields_lt hv, splitWord_joinFields hv⟩

/-! ### The command word (R70 to R72) -/

/-- The widths of the fields of the command word, `OP` lowest (R71). -/
def cmdWidths (p : Params) : List Nat := [3, p.lw, p.lw, p.iw, p.iw, p.lmax, p.lmax]

/-- The values of the fields of a command, `OP` first (R70). -/
def cmdValues (i : Instr) : List Nat :=
  [i.opcode, i.fields.lena, i.fields.lenb, i.fields.x, i.fields.y, i.fields.seqa, i.fields.seqb]

theorem sum_cmdWidths (p : Params) : (cmdWidths p).sum = p.cw := by
  simp only [cmdWidths, Params.cw, List.sum_cons, List.sum_nil]
  omega

theorem encode_eq_joinFields (p : Params) (i : Instr) :
    encode p i = joinFields (cmdWidths p) (cmdValues i) := by
  simp only [encode, cmdWidths, cmdValues, joinFields, Params.lenaLo, Params.lenbLo, Params.xLo, Params.yLo,
    Params.seqaLo, Params.seqbLo, Nat.shiftLeft_eq]
  ring

/-- The splitting of a word reads what the decoder reads. -/
theorem splitWord_cmdWidths (p : Params) (w : Nat) :
    splitWord (cmdWidths p) w =
      [bitField w 0 3, (fieldsOfWord p w).lena, (fieldsOfWord p w).lenb, (fieldsOfWord p w).x,
        (fieldsOfWord p w).y, (fieldsOfWord p w).seqa, (fieldsOfWord p w).seqb] := by
  simp only [cmdWidths, splitWord, bitField_shiftRight, fieldsOfWord, Params.lenaLo, Params.lenbLo,
    Params.xLo, Params.yLo, Params.seqaLo, Params.seqbLo]
  ring_nf

theorem wf_iff_fitFields (p : Params) (i : Instr) :
    i.wf p = true ↔ FitFields (cmdWidths p) (cmdValues i) := by
  simp [Instr.wf, Fields.wf, FitFields, cmdWidths, cmdValues, Instr.opcode_lt i, and_assoc]

theorem fields_eq_iff (f g : Fields) : f = g ↔ f.lena = g.lena ∧ f.lenb = g.lenb ∧ f.x = g.x ∧ f.y = g.y ∧
    f.seqa = g.seqa ∧ f.seqb = g.seqb := by
  cases f
  cases g
  simp

theorem decode_eq_ok_iff_splitWord (p : Params) (w : Nat) (i : Instr) :
    decode p w = .ok i ↔ w < 2 ^ (cmdWidths p).sum ∧ splitWord (cmdWidths p) w = cmdValues i := by
  rw [decode_eq_ok_iff, sum_cmdWidths, splitWord_cmdWidths]
  simp [cmdValues, fields_eq_iff, eq_comm]

/-- The decoder inverts the encoder: a word decodes to a command iff the command fits the port and the word
is its own. -/
theorem decode_eq_ok_iff_encode_eq (p : Params) (w : Nat) (i : Instr) :
    decode p w = .ok i ↔ encode p i = w ∧ i.wf p = true := by
  rw [decode_eq_ok_iff_splitWord, splitWord_eq_iff, encode_eq_joinFields, wf_iff_fitFields]

/-- Settles O1: a command that fits the port is what its own word decodes to. -/
theorem decodeOfEncodeIsIdentity : Obligations.DecodeOfEncodeIsIdentity :=
  fun p _ h => (decode_eq_ok_iff_encode_eq p _ _).2 ⟨rfl, h⟩

/-- Settles O2: the same equivalence, from the word to the command. -/
theorem encodeOfDecodeIsIdentity : Obligations.EncodeOfDecodeIsIdentity :=
  fun p w i => (decode_eq_ok_iff_encode_eq p w i).1

/-- A word of the port decodes to the command with its fields whose opcode its three low bits spell (R72). -/
theorem decode_of_opcode {p : Params} {w : Nat} {i : Instr} (hw : w < 2 ^ p.cw) (ho : w % 8 = i.opcode)
    (hf : i.fields = fieldsOfWord p w) : decode p w = .ok i :=
  (decode_eq_ok_iff p w i).2 ⟨hw, ho.symm, hf⟩

/-- The opcode map has a row for each value of the three bits of `OP` (R72, R75). -/
theorem exists_instr_of_opcode {op : Nat} (h : op < 8) (f : Fields) :
    ∃ i : Instr, op = i.opcode ∧ i.fields = f := by
  interval_cases op
  · exact ⟨.reserved0 f, rfl, rfl⟩
  · exact ⟨.crcDiv f, rfl, rfl⟩
  · exact ⟨.crcVfy f, rfl, rfl⟩
  · exact ⟨.crcVfyx f, rfl, rfl⟩
  · exact ⟨.hamVal f, rfl, rfl⟩
  · exact ⟨.hamDec f, rfl, rfl⟩
  · exact ⟨.reserved6 f, rfl, rfl⟩
  · exact ⟨.reserved7 f, rfl, rfl⟩

theorem exists_decode_eq_ok {p : Params} {w : Nat} (hw : w < 2 ^ p.cw) : ∃ i, decode p w = .ok i := by
  obtain ⟨i, ho, hf⟩ := exists_instr_of_opcode (Nat.mod_lt w (by decide)) (fieldsOfWord p w)
  exact ⟨i, decode_of_opcode hw ho hf⟩

theorem decode_eq_tooWide {p : Params} {w : Nat} (hw : 2 ^ p.cw ≤ w) : decode p w = .error .tooWide :=
  if_neg ((fitsWord_iff w p.cw).not.2 hw.not_gt)

/-- Settles O3: the opcode map has a row for each word of the port, and a wider number is told by its width. -/
theorem everyCommandWordDecodes : Obligations.EveryCommandWordDecodes :=
  fun _ _ => ⟨exists_decode_eq_ok, decode_eq_tooWide⟩

/-- Settles O4: each field of the decoded command is a field of the word, read bit by bit. -/
theorem commandWordLayout : Obligations.CommandWordLayout := by
  intro p w i h
  obtain ⟨hw, ho, hf⟩ := (decode_eq_ok_iff p w i).1 h
  rw [ho, hf]
  refine ⟨hw, fun k => ?_, testBit_bitField w _ _, testBit_bitField w _ _, testBit_bitField w _ _,
    testBit_bitField w _ _, testBit_bitField w _ _, testBit_bitField w _ _, fun w' i' h' hlow => ?_⟩
  · rw [testBit_bitField, Nat.zero_add]
  · obtain ⟨-, ho', -⟩ := (decode_eq_ok_iff p w' i').1 h'
    exact ho'.trans hlow

/-- Settles O5: the three low bits name the row of the opcode map. -/
theorem opcodeMap : Obligations.OpcodeMap := by
  intro p w hw
  refine ⟨?_, ?_, ?_, ?_, ?_, ?_, ?_, ?_⟩ <;> exact fun h => ⟨_, decode_of_opcode hw h rfl⟩

/-- Settles O6: the decoder is run on the six words. -/
theorem writtenOutWordsDecode : Obligations.WrittenOutWordsDecode :=
  ⟨rfl, rfl, rfl, rfl, rfl, rfl⟩

/-! ### The codes of the response word (R78) -/

theorem statusOfCode_statusCode (st : Status) : statusOfCode (statusCode st) = some st := by
  cases st <;> rfl

theorem detailOfCode_detailCode (d : Detail) : detailOfCode (detailCode d) = some d := by
  cases d <;> rfl

theorem statusOfCode_eq_none {c : Nat} (h : 5 ≤ c) : statusOfCode c = none := by
  obtain ⟨k, rfl⟩ := Nat.exists_eq_add_of_le' h
  rfl

theorem detailOfCode_eq_none {c : Nat} (h : 6 ≤ c) : detailOfCode c = none := by
  obtain ⟨k, rfl⟩ := Nat.exists_eq_add_of_le' h
  rfl

theorem statusOfCode_eq_some_iff (c : Nat) (st : Status) : statusOfCode c = some st ↔ statusCode st = c := by
  constructor
  · intro h
    have hc : c < 5 := not_le.1 fun hc => by rw [statusOfCode_eq_none hc] at h; cases h
    interval_cases c <;> cases h <;> rfl
  · rintro rfl
    exact statusOfCode_statusCode st

theorem detailOfCode_eq_some_iff (c : Nat) (d : Detail) : detailOfCode c = some d ↔ detailCode d = c := by
  constructor
  · intro h
    have hc : c < 6 := not_le.1 fun hc => by rw [detailOfCode_eq_none hc] at h; cases h
    interval_cases c <;> cases h <;> rfl
  · rintro rfl
    exact detailOfCode_detailCode d

/-- Settles O56: the two tables, their inverses, and the codes past their ends. -/
theorem responseCodeValues : Obligations.ResponseCodeValues :=
  ⟨⟨rfl, rfl, rfl, rfl, rfl⟩, ⟨rfl, rfl, rfl, rfl, rfl, rfl⟩, statusOfCode_eq_some_iff,
    detailOfCode_eq_some_iff, fun _ => statusOfCode_eq_none, fun _ => detailOfCode_eq_none⟩

theorem statusCode_lt (st : Status) : statusCode st < 8 := by
  cases st <;> decide

theorem detailCode_lt (d : Detail) : detailCode d < 8 := by
  cases d <;> decide

/-! ### The response word (R76, R77) -/

/-- The widths of the fields of the response word, `STATUS` lowest (R77). -/
def rspWidths (p : Params) : List Nat := [3, 3, 1, 1, p.lw, p.lw, p.lmax]

/-- The values of the fields of a response, `STATUS` first (R76). -/
def rspValues (r : Response) : List Nat :=
  [statusCode r.status, detailCode r.detail, r.flag.toNat, r.ccnt.val, r.olen, r.synd, r.obits]

theorem sum_rspWidths (p : Params) : (rspWidths p).sum = rspWidth p := by
  simp only [rspWidths, rspWidth, List.sum_cons, List.sum_nil]
  omega

theorem packRsp_eq_joinFields (p : Params) (r : Response) :
    packRsp p r = joinFields (rspWidths p) (rspValues r) := by
  simp only [packRsp, rspWidths, rspValues, joinFields, Nat.shiftLeft_eq]
  ring

theorem splitWord_rspWidths (p : Params) (w : Nat) :
    splitWord (rspWidths p) w =
      [bitField w 0 3, bitField w 3 3, bitField w 6 1, bitField w 7 1, bitField w 8 p.lw,
        bitField w (p.lw + 8) p.lw, bitField w (2 * p.lw + 8) p.lmax] := by
  simp only [rspWidths, splitWord, bitField_shiftRight]
  ring_nf

theorem rsp_wf_iff_fitFields (p : Params) (r : Response) :
    r.wf p = true ↔ FitFields (rspWidths p) (rspValues r) := by
  simp [Response.wf, FitFields, rspWidths, rspValues, statusCode_lt, detailCode_lt, Bool.toNat_le, Fin.is_le,
    and_assoc]

theorem bitField_one_eq_toNat (w lo : Nat) : bitField w lo 1 = (w.testBit lo).toNat := by
  rw [bitField, Nat.pow_one, Nat.toNat_testBit, Nat.shiftRight_eq_div_pow]

theorem bool_eq_iff_toNat_eq : ∀ b c : Bool, b = c ↔ b.toNat = c.toNat := by
  decide

/-- `FLAG` as a bit and as a field of width 1. -/
theorem testBit_eq_flag_iff (w lo : Nat) (b : Bool) : w.testBit lo = b ↔ bitField w lo 1 = b.toNat := by
  rw [bitField_one_eq_toNat, bool_eq_iff_toNat_eq]

theorem ofBit_eq_iff : ∀ (b : Bool) (c : Fin 2), (if b then 1 else 0) = c ↔ b.toNat = c.val := by
  decide

/-- `CCNT` as a number and as a field of width 1. -/
theorem ofTestBit_eq_ccnt_iff (w lo : Nat) (c : Fin 2) :
    (if w.testBit lo then 1 else 0) = c ↔ bitField w lo 1 = c.val := by
  rw [bitField_one_eq_toNat, ofBit_eq_iff]

/-- What the reader of a response word accepts: a word of `RW` bits, whose response has the word's codes
and fields. -/
theorem unpackRsp_eq_some_iff (p : Params) (w : Nat) (r : Response) :
    unpackRsp p w = some r ↔ w < 2 ^ rspWidth p ∧ statusOfCode (bitField w 0 3) = some r.status ∧
      detailOfCode (bitField w 3 3) = some r.detail ∧ w.testBit 6 = r.flag ∧
      (if w.testBit 7 then 1 else 0) = r.ccnt ∧ bitField w 8 p.lw = r.olen ∧
      bitField w (p.lw + 8) p.lw = r.synd ∧ bitField w (2 * p.lw + 8) p.lmax = r.obits := by
  cases r
  unfold unpackRsp
  simp only [fitsWord_iff]
  split
  · next hw =>
    cases statusOfCode (bitField w 0 3) <;> cases detailOfCode (bitField w 3 3) <;> simp [hw]
  · next hw => simp [hw]

theorem unpackRsp_eq_some_iff_splitWord (p : Params) (w : Nat) (r : Response) :
    unpackRsp p w = some r ↔ w < 2 ^ (rspWidths p).sum ∧ splitWord (rspWidths p) w = rspValues r := by
  rw [unpackRsp_eq_some_iff, sum_rspWidths, splitWord_rspWidths, statusOfCode_eq_some_iff,
    detailOfCode_eq_some_iff, testBit_eq_flag_iff, ofTestBit_eq_ccnt_iff]
  simp [rspValues, eq_comm]

/-- Unpacking inverts packing: a word spells a response iff the response fits its fields and the word is
its own. -/
theorem unpackRsp_eq_some_iff_packRsp_eq (p : Params) (w : Nat) (r : Response) :
    unpackRsp p w = some r ↔ packRsp p r = w ∧ r.wf p = true := by
  rw [unpackRsp_eq_some_iff_splitWord, splitWord_eq_iff, packRsp_eq_joinFields, rsp_wf_iff_fitFields]

/-- Settles O8: the two directions of the equivalence of packing and unpacking. -/
theorem responseWordRoundTrip : Obligations.ResponseWordRoundTrip := fun p =>
  ⟨fun _ h => (unpackRsp_eq_some_iff_packRsp_eq p _ _).2 ⟨rfl, h⟩,
    fun w r => (unpackRsp_eq_some_iff_packRsp_eq p w r).1⟩

/-- Settles O7: the packed word spells the response, so its fields are the response's. -/
theorem responseWordLayout : Obligations.ResponseWordLayout := by
  intro p r h
  have hu := (unpackRsp_eq_some_iff_packRsp_eq p _ r).2 ⟨rfl, h⟩
  obtain ⟨hw, hs, hd, hf, hc, ho, hy, hb⟩ := (unpackRsp_eq_some_iff p _ r).1 hu
  rw [statusOfCode_eq_some_iff] at hs
  rw [detailOfCode_eq_some_iff] at hd
  refine ⟨hw, fun k hk => ?_, fun k => testBit_of_bitField_eq hd.symm, hf, ?_,
    fun k => testBit_of_bitField_eq ho, fun k => testBit_of_bitField_eq hy,
    fun k => testBit_of_bitField_eq hb⟩
  · simpa using testBit_of_bitField_eq hs.symm hk
  · rw [← hc]
    cases (packRsp p r).testBit 7 <;> rfl

end Sys2Proof.Machine
end

section
/-! SUPPORT. What all responses have in common (spec 30_encoding.md R73 to R76, R79): which fields of a
response an operation defines, which fields of a command it reads, and that its response fits its word. -/

namespace Sys2Proof.Machine

/-! ### Reserved opcodes (R75) -/

/-- A response that is taken leaves `PHASE` free again, and only `RSP` and the host's record differ. -/
theorem State.takeRsp_of_held {s : State} (hs : s.phase = .idle) (r : Response) :
    let t : State := { s with phase := .done, rsp := r }
    t.takeRsp = { s with
      rsp := t.takeRsp.rsp
      freeCount := t.takeRsp.freeCount
      inFlight := t.takeRsp.inFlight
      delivered := t.takeRsp.delivered } := by
  cases s
  cases hs
  rfl

/-- Settles O35: a reserved opcode forms the one response whatever its fields, and TAKE frees the port. -/
theorem reservedOpcodesAnswerIllegalOp : Obligations.ReservedOpcodesAnswerIllegalOp := by
  intro op hop f s hs
  have hexec : exec (op f) s = issue illegalOp s := by
    simp only [List.mem_cons, List.not_mem_nil, or_false] at hop
    rcases hop with rfl | rfl | rfl <;> rfl
  exact ⟨_, hexec.trans (issue_idle hs _), rfl, State.takeRsp_of_held hs _⟩

/-! ### Fields an operation does not define are 0 (R76, R79) -/

/-- The response sets only fields that the operation with the opcode `op` defines, and counts a correction
exactly when it is OK with a syndrome. -/
def SetsDefinedFields (op : Nat) (r : Response) : Prop :=
  (r.flag = true → op = 2 ∨ op = 4) ∧
  (r.ccnt ≠ 0 ∨ r.synd ≠ 0 → op = 5) ∧
  (r.olen ≠ 0 ∨ r.obits ≠ 0 → op = 1 ∨ op = 3 ∨ op = 5) ∧
  (r.ccnt = 1 ↔ r.status = .ok ∧ r.synd ≠ 0)

theorem setsDefinedFields_invalidInput (op : Nat) (d : Detail) :
    SetsDefinedFields op ⟨.invalidInput, d, false, 0, 0, 0, 0⟩ := by
  simp [SetsDefinedFields]

theorem crcDiv_setsDefinedFields (f : Fields) : SetsDefinedFields 1 (crcDiv f) := by
  rcases crcDiv_cases f with ⟨-, h⟩ | ⟨-, -, -, h⟩ | ⟨-, -, -, h⟩ <;> rw [h]
  · exact setsDefinedFields_invalidInput 1 _
  · exact setsDefinedFields_invalidInput 1 _
  · simp [SetsDefinedFields]

theorem crcVfy_setsDefinedFields (f : Fields) : SetsDefinedFields 2 (crcVfy f) := by
  rcases crcVfy_cases f with ⟨-, h⟩ | ⟨-, -, -, h⟩ | ⟨-, -, -, h⟩ <;> rw [h]
  · exact setsDefinedFields_invalidInput 2 _
  · exact setsDefinedFields_invalidInput 2 _
  · simp [SetsDefinedFields]

theorem crcVfyx_setsDefinedFields (f : Fields) : SetsDefinedFields 3 (crcVfyx f) := by
  rcases crcVfyx_cases f with ⟨-, h⟩ | ⟨-, -, -, h⟩ | ⟨-, -, -, h⟩ <;> rw [h]
  · exact setsDefinedFields_invalidInput 3 _
  · exact setsDefinedFields_invalidInput 3 _
  · split <;> simp [SetsDefinedFields]

theorem hamVal_setsDefinedFields (f : Fields) : SetsDefinedFields 4 (hamVal f) := by
  simp [SetsDefinedFields, hamVal]

theorem hamDec_setsDefinedFields (f : Fields) : SetsDefinedFields 5 (hamDec f) := by
  rcases hamDec_cases f with ⟨-, h⟩ | ⟨-, -, h⟩ | ⟨-, -, -, h⟩ | ⟨-, -, hpos, -, h⟩ | ⟨-, -, -, h⟩ <;> rw [h]
  · exact setsDefinedFields_invalidInput 5 _
  · exact setsDefinedFields_invalidInput 5 _
  · simp [SetsDefinedFields]
  · simp [SetsDefinedFields, hpos.ne']
  · simp [SetsDefinedFields]

/-- Settles O38: by the outcomes of each operation. -/
theorem undefinedResponseFieldsAreZero : Obligations.UndefinedResponseFieldsAreZero := by
  intro i r h
  cases i with
  | crcDiv f => exact (answers_crcDiv f r).1 h ▸ crcDiv_setsDefinedFields f
  | crcVfy f => exact (answers_crcVfy f r).1 h ▸ crcVfy_setsDefinedFields f
  | crcVfyx f => exact (answers_crcVfyx f r).1 h ▸ crcVfyx_setsDefinedFields f
  | hamVal f => exact (answers_hamVal f r).1 h ▸ hamVal_setsDefinedFields f
  | hamDec f => exact (answers_hamDec f r).1 h ▸ hamDec_setsDefinedFields f
  | reserved0 f => exact (answers_reserved0 f r).1 h ▸ setsDefinedFields_invalidInput 0 _
  | reserved6 f => exact (answers_reserved6 f r).1 h ▸ setsDefinedFields_invalidInput 6 _
  | reserved7 f => exact (answers_reserved7 f r).1 h ▸ setsDefinedFields_invalidInput 7 _

/-! ### Fields and bits an operation does not read (R73, R74) -/

section
variable {f g : Fields}

/-- Agreement on what the CRC operations read is agreement on their four operands. -/
theorem crcOperands_congr (h : AgreeOnRead.AgreeOnCrc f g) :
    crcFrame f = crcFrame g ∧ crcFrameLen f = crcFrameLen g ∧ crcGen f = crcGen g ∧
      crcGenLen f = crcGenLen g := by
  obtain ⟨ha, hb, hA, hB⟩ := h
  exact ⟨seqA_congr ha hA, ha, seqB_congr hb hB, hb⟩

theorem crcDiv_congr (h : AgreeOnRead.AgreeOnCrc f g) : crcDiv f = crcDiv g := by
  obtain ⟨hD, hL, hG, hg⟩ := crcOperands_congr h
  simp only [crcDiv, crcOp, hD, hL, hG, hg]

theorem crcVfy_congr (h : AgreeOnRead.AgreeOnCrc f g) : crcVfy f = crcVfy g := by
  obtain ⟨hD, hL, hG, hg⟩ := crcOperands_congr h
  simp only [crcVfy, crcOp, hD, hL, hG, hg]

theorem crcVfyx_congr (h : AgreeOnRead.AgreeOnCrc f g) : crcVfyx f = crcVfyx g := by
  obtain ⟨hD, hL, hG, hg⟩ := crcOperands_congr h
  simp only [crcVfyx, crcOp, hD, hL, hG, hg]

theorem hamVal_congr (hx : f.x = g.x) (hy : f.y = g.y) : hamVal f = hamVal g := by
  simp only [hamVal, valPayloadLen, valRedundancy, hx, hy]

theorem hamDec_congr (hl : f.lena = g.lena) (hx : f.x = g.x) (hy : f.y = g.y)
    (hA : SameBitsBelow f.lena f.seqa g.seqa) : hamDec f = hamDec g := by
  simp only [hamDec, hamBlock, hamBlockLen, decTotalLen, decPayloadLen, seqA_congr hl hA, hl, hx, hy]

end

/-- Settles O39: each operation's response is a function of the operands it reads. -/
theorem ignoredBitsHaveNoEffect : Obligations.IgnoredBitsHaveNoEffect := by
  intro i i' r hagree hr
  unfold AgreeOnRead at hagree
  split at hagree
  · rw [answers_crcDiv] at hr ⊢
    exact hr.trans (crcDiv_congr hagree)
  · rw [answers_crcVfy] at hr ⊢
    exact hr.trans (crcVfy_congr hagree)
  · rw [answers_crcVfyx] at hr ⊢
    exact hr.trans (crcVfyx_congr hagree)
  · obtain ⟨hx, hy⟩ := hagree
    rw [answers_hamVal] at hr ⊢
    exact hr.trans (hamVal_congr hx hy)
  · obtain ⟨hl, hx, hy, hA⟩ := hagree
    rw [answers_hamDec] at hr ⊢
    exact hr.trans (hamDec_congr hl hx hy hA)
  · exact (answers_reserved0 _ r).2 ((answers_reserved0 _ r).1 hr)
  · exact (answers_reserved6 _ r).2 ((answers_reserved6 _ r).1 hr)
  · exact (answers_reserved7 _ r).2 ((answers_reserved7 _ r).1 hr)
  · exact hagree.elim

/-! ### Every response fits the response word (R76) -/

/-- The xor of positions of `k` bits has `k` bits (41_hamming.md R132). -/
theorem syndrome_lt_two_pow (E : BitSeq) {n k : Nat} (hn : n < 2 ^ k) : syndrome E n < 2 ^ k := by
  induction n with
  | zero => exact hn
  | succ n ih =>
    have hlow := ih (Nat.lt_of_succ_lt hn)
    rw [syndrome_succ]
    split
    · exact Nat.xor_lt_two_pow hlow hn
    · exact hlow

section
variable (f : Fields)

theorem crcDiv_olen_le : (crcDiv f).olen ≤ f.lena := by
  rcases crcDiv_cases f with ⟨-, h⟩ | ⟨-, -, -, h⟩ | ⟨-, -, hle, h⟩ <;> rw [h]
  · exact Nat.zero_le _
  · exact Nat.zero_le _
  · exact (Nat.sub_le _ _).trans hle

theorem crcVfy_olen_eq_zero : (crcVfy f).olen = 0 := by
  rcases crcVfy_cases f with ⟨-, h⟩ | ⟨-, -, -, h⟩ | ⟨-, -, -, h⟩ <;> rw [h]

theorem crcVfyx_olen_le : (crcVfyx f).olen ≤ f.lena := by
  rcases crcVfyx_cases f with ⟨-, h⟩ | ⟨-, -, -, h⟩ | ⟨h₀, -, hle, h⟩ <;> rw [h]
  · exact Nat.zero_le _
  · exact Nat.zero_le _
  · split
    · change f.lena - f.lenb + 1 ≤ f.lena
      omega
    · exact Nat.zero_le _

theorem hamDec_olen_le : (hamDec f).olen ≤ f.lena := by
  rcases hamDec_cases f with ⟨-, h⟩ | ⟨-, -, h⟩ | ⟨hl, hm, -, h⟩ | ⟨hl, hm, -, -, h⟩ | ⟨-, -, -, h⟩ <;> rw [h]
  · exact Nat.zero_le _
  · exact Nat.zero_le _
  · exact hm ▸ hl ▸ Nat.sub_le _ _
  · exact hm ▸ hl ▸ Nat.sub_le _ _
  · exact Nat.zero_le _

theorem hamDec_synd_lt {k : Nat} (hk : f.lena < 2 ^ k) : (hamDec f).synd < 2 ^ k := by
  rcases hamDec_cases f with ⟨-, h⟩ | ⟨-, -, h⟩ | ⟨-, -, -, h⟩ | ⟨hl, -, -, -, h⟩ | ⟨hl, -, -, h⟩ <;> rw [h]
  · exact Nat.two_pow_pos k
  · exact Nat.two_pow_pos k
  · exact Nat.two_pow_pos k
  · exact syndrome_lt_two_pow _ (hl ▸ hk)
  · exact syndrome_lt_two_pow _ (hl ▸ hk)

end

/-- No result is longer than the sequence `A` it is computed from. -/
theorem Answers.olen_le {i : Instr} {r : Response} (h : Answers i r) : r.olen ≤ i.fields.lena := by
  cases i with
  | crcDiv f => exact (answers_crcDiv f r).1 h ▸ crcDiv_olen_le f
  | crcVfy f => exact (answers_crcVfy f r).1 h ▸ (crcVfy_olen_eq_zero f).trans_le (Nat.zero_le _)
  | crcVfyx f => exact (answers_crcVfyx f r).1 h ▸ crcVfyx_olen_le f
  | hamVal f => exact (answers_hamVal f r).1 h ▸ Nat.zero_le _
  | hamDec f => exact (answers_hamDec f r).1 h ▸ hamDec_olen_le f
  | reserved0 f => exact (answers_reserved0 f r).1 h ▸ Nat.zero_le _
  | reserved6 f => exact (answers_reserved6 f r).1 h ▸ Nat.zero_le _
  | reserved7 f => exact (answers_reserved7 f r).1 h ▸ Nat.zero_le _

/-- A syndrome is as wide as the length of the block: of the operations only HAM.DEC answers one. -/
theorem Answers.synd_lt {i : Instr} {r : Response} (h : Answers i r) {k : Nat}
    (hk : i.fields.lena < 2 ^ k) : r.synd < 2 ^ k := by
  obtain ⟨-, honly, -⟩ := undefinedResponseFieldsAreZero i r h
  by_cases hs : r.synd = 0
  · exact hs ▸ Nat.two_pow_pos k
  · have hop := honly (.inr hs)
    cases i with
    | hamDec f => exact (answers_hamDec f r).1 h ▸ hamDec_synd_lt f hk
    | _ => cases hop

theorem lena_lt_of_wf {p : Params} {i : Instr} (h : i.wf p = true) : i.fields.lena < 2 ^ p.lw := by
  simp only [Instr.wf, Fields.wf, Bool.and_eq_true, decide_eq_true_eq] at h
  obtain ⟨⟨⟨⟨⟨hlena, -⟩, -⟩, -⟩, -⟩, -⟩ := h
  exact hlena

/-- Settles O41: `OLEN` and `SYND` are bounded by the length of `A`, and `OBITS` by `OLEN`, which is at most
the width of a sequence field. -/
theorem responseFitsItsWord : Obligations.ResponseFitsItsWord := by
  intro p i r hwf ha
  have hlen := lena_lt_of_wf hwf
  have holen : r.olen < 2 ^ p.lw := ha.olen_le.trans_lt hlen
  have hlmax : r.olen ≤ p.lmax := Nat.le_sub_one_of_lt holen
  have hobits : r.obits < 2 ^ p.lmax := ha.obits_lt.trans_le (Nat.pow_le_pow_right Nat.two_pos hlmax)
  refine ⟨?_, ha.obits_lt⟩
  simp [Response.wf, holen, ha.synd_lt hlen, hobits]

end Sys2Proof.Machine
end

section
/-! SUPPORT. What the CRC operations answer (spec 40_crc.md R102, R104 to R106): one lemma for each outcome
of the checks and of the division, and the rules that say so of every state. -/

namespace Sys2Proof.Machine

section
variable {f : Fields}

/-- What the checks accept, said of the generator as a sequence (40_crc.md R100, R102). -/
theorem crcInputsGood_iff : CrcInputsGood f ↔ WellFormedGen (seqB f) ∧ f.lenb ≤ f.lena := by
  rw [CrcInputsGood, WellFormedGen, length_seqB]
  constructor
  · rintro ⟨h₁, h₀, hle⟩
    exact ⟨⟨h₁, (bitAt_seqB f h₁).trans h₀⟩, hle⟩
  · rintro ⟨⟨h₁, h₀⟩, hle⟩
    exact ⟨h₁, (bitAt_seqB f h₁).symm.trans h₀, hle⟩

/-! ### The shared part of the three operations -/

theorem crcOp_of_bad_generator (h : f.lenb = 0 ∨ f.seqb.testBit 0 = false) (answer : BitSeq → Response) :
    crcOp f answer = ⟨.invalidInput, .badGenerator, false, 0, 0, 0, 0⟩ := by
  rcases crcOp_cases f answer with ⟨-, hr⟩ | ⟨h₀, h₁, -, -⟩ | ⟨h₀, h₁, -, -⟩
  · exact hr
  · simp [h₀, h₁] at h
  · simp [h₀, h₁] at h

theorem crcOp_of_short_frame (h₀ : f.lenb ≠ 0) (h₁ : f.seqb.testBit 0 = true) (hlt : f.lena < f.lenb)
    (answer : BitSeq → Response) :
    crcOp f answer = ⟨.invalidInput, .frameShort, false, 0, 0, 0, 0⟩ := by
  rcases crcOp_cases f answer with ⟨h, -⟩ | ⟨-, -, -, hr⟩ | ⟨-, -, hle, -⟩
  · simp [h₀, h₁] at h
  · exact hr
  · omega

/-- An operation with a failing check answers its first failing cause, and no part of a result. -/
theorem crcOp_of_not_good (h : ¬ CrcInputsGood f) (answer : BitSeq → Response) :
    crcOp f answer = ⟨.invalidInput,
      if f.lenb = 0 ∨ f.seqb.testBit 0 = false then .badGenerator else .frameShort, false, 0, 0, 0, 0⟩ := by
  split
  case isTrue hbad => exact crcOp_of_bad_generator hbad answer
  case isFalse hgen =>
    simp only [not_or, Bool.not_eq_false] at hgen
    obtain ⟨h₀, h₁⟩ := hgen
    exact crcOp_of_short_frame h₀ h₁
      (not_le.1 fun hle => h ⟨Nat.one_le_iff_ne_zero.2 h₀, h₁, hle⟩) answer

/-- Each of the three operations is the shared part with an answer of its own. -/
theorem exists_exec_eq_issue_crcOp {op : Fields → Instr}
    (hop : op ∈ [Instr.crcDiv, Instr.crcVfy, Instr.crcVfyx]) (f : Fields) :
    ∃ answer, ∀ s, exec (op f) s = issue (crcOp f answer) s := by
  simp only [List.mem_cons, List.not_mem_nil, or_false] at hop
  rcases hop with rfl | rfl | rfl
  · exact ⟨_, exec_crcDiv f⟩
  · exact ⟨_, exec_crcVfy f⟩
  · exact ⟨_, exec_crcVfyx f⟩

/-- A response that the shared part gives whatever the answer is the response of all three operations. -/
theorem answers_of_forall_crcOp {r : Response} (h : ∀ answer, crcOp f answer = r) {op : Fields → Instr}
    (hop : op ∈ [Instr.crcDiv, Instr.crcVfy, Instr.crcVfyx]) : Answers (op f) r := by
  obtain ⟨answer, hexec⟩ := exists_exec_eq_issue_crcOp hop f
  exact (answers_iff hexec r).2 (h answer).symm

/-- Settles O14: all three operations answer the first failing cause, which reads the two lengths and the
generator's leading bit only. -/
theorem failedCrcCheckReadsNoFrameBit : Obligations.FailedCrcCheckReadsNoFrameBit := by
  intro op hop op' hop' f g hf ha hb hs
  have hg : ¬ CrcInputsGood g := by rwa [CrcInputsGood, ← ha, ← hb, ← hs]
  refine ⟨answers_of_forall_crcOp (crcOp_of_not_good hf) hop, ?_⟩
  rw [hb, hs]
  exact answers_of_forall_crcOp (crcOp_of_not_good hg) hop'

/-! ### The outcomes with good inputs -/

theorem crcOp_of_good (h : CrcInputsGood f) (answer : BitSeq → Response) :
    crcOp f answer = answer (mod2div (seqA f) f.lena (seqB f) f.lenb) := by
  obtain ⟨hpos, h₁, hle⟩ := h
  have h₀ : f.lenb ≠ 0 := Nat.one_le_iff_ne_zero.1 hpos
  rcases crcOp_cases f answer with ⟨hbad, -⟩ | ⟨-, -, hlt, -⟩ | ⟨-, -, -, hr⟩
  · simp [h₀, h₁] at hbad
  · omega
  · exact hr

theorem answers_crcDiv_of_good (h : CrcInputsGood f) :
    Answers (.crcDiv f) ⟨.ok, .none, false, 0, f.lenb - 1, 0,
      toField (mod2div (seqA f) f.lena (seqB f) f.lenb)⟩ := by
  rw [answers_crcDiv, crcDiv, crcOp_of_good h]
  rfl

/-- CRC.VFY answers any flag that says whether the remainder is all zeros. -/
theorem answers_crcVfy_of_flag_iff (h : CrcInputsGood f) {flag : Bool}
    (hflag : flag = true ↔ true ∉ mod2div (seqA f) f.lena (seqB f) f.lenb) :
    Answers (.crcVfy f) ⟨.ok, .none, flag, 0, 0, 0, 0⟩ := by
  have : flag = allZero (mod2div (seqA f) f.lena (seqB f) f.lenb) :=
    Bool.eq_iff_iff.2 (hflag.trans (allZero_iff _).symm)
  rw [answers_crcVfy, crcVfy, crcOp_of_good h, this]
  rfl

theorem answers_crcVfyx_of_verified (h : CrcInputsGood f)
    (hv : true ∉ mod2div (seqA f) f.lena (seqB f) f.lenb) :
    Answers (.crcVfyx f) ⟨.ok, .none, false, 0, f.lena - f.lenb + 1, 0,
      f.seqa % 2 ^ (f.lena - f.lenb + 1)⟩ := by
  rw [answers_crcVfyx, crcVfyx, crcOp_of_good h, if_pos ((allZero_iff _).2 hv), crcFrame, seqA,
    crcFrameLen, crcGenLen, toField_take _ _ _ (by obtain ⟨hpos, -, hle⟩ := h; omega)]
  rfl

theorem answers_crcVfyx_of_not_verified (h : CrcInputsGood f)
    (hv : true ∈ mod2div (seqA f) f.lena (seqB f) f.lenb) :
    Answers (.crcVfyx f) ⟨.verificationFailed, .none, false, 0, 0, 0, 0⟩ := by
  rw [answers_crcVfyx, crcVfyx, crcOp_of_good h, if_neg (mt (allZero_iff _).1 (not_not.2 hv))]
  rfl

end

/-- Settles O11: by the outcome of the checks. -/
theorem crcDivAnswersRemainder : Obligations.CrcDivAnswersRemainder := fun f s hs =>
  ⟨fun h => answers_crcDiv_of_good h s hs,
    fun h => answers_of_forall_crcOp (crcOp_of_bad_generator h) (by simp) s hs,
    fun h₀ h₁ hlt => answers_of_forall_crcOp (crcOp_of_short_frame h₀ h₁ hlt) (by simp) s hs⟩

/-- Settles O12: by the outcome of the checks, and whether the remainder is all zeros. -/
theorem crcVfyAnswersFlag : Obligations.CrcVfyAnswersFlag := fun f s hs =>
  ⟨fun h =>
    ⟨fun hv => answers_crcVfy_of_flag_iff h (iff_of_true rfl hv) s hs,
      fun hv => answers_crcVfy_of_flag_iff h (iff_of_false Bool.false_ne_true (not_not.2 hv)) s hs⟩,
    fun h => answers_of_forall_crcOp (crcOp_of_bad_generator h) (by simp) s hs,
    fun h₀ h₁ hlt => answers_of_forall_crcOp (crcOp_of_short_frame h₀ h₁ hlt) (by simp) s hs⟩

/-- Settles O13: by the outcome of the checks, and whether the remainder is all zeros. -/
theorem crcVfyxAnswersPayload : Obligations.CrcVfyxAnswersPayload := fun f s hs =>
  ⟨fun h =>
    ⟨fun hv => answers_crcVfyx_of_verified h hv s hs, fun hv => answers_crcVfyx_of_not_verified h hv s hs⟩,
    fun h => answers_of_forall_crcOp (crcOp_of_bad_generator h) (by simp) s hs,
    fun h₀ h₁ hlt => answers_of_forall_crcOp (crcOp_of_short_frame h₀ h₁ hlt) (by simp) s hs⟩

/-! ### The scan, element by element (R103, R107) -/

theorem bitAt_drop (S : BitSeq) (n j : Nat) : bitAt (S.drop n) j = bitAt S (n + j) := by
  simp [bitAt]

theorem bitAt_append (S T : BitSeq) (k : Nat) :
    bitAt (S ++ T) k = if k < S.length then bitAt S k else bitAt T (k - S.length) := by
  split
  · next h => simp [bitAt, List.getElem?_append_left h]
  · next h => simp [bitAt, List.getElem?_append_right (not_lt.1 h)]

section
variable {D G : BitSeq} {i k : Nat}

theorem bitAt_scan_succ (hi : i + G.length ≤ D.length) (k : Nat) :
    bitAt (scan G D (i + 1)) k =
      if bitAt (scan G D i) i = true ∧ i ≤ k ∧ k < i + G.length then
        Bool.xor (bitAt (scan G D i) k) (bitAt G (k - i))
      else bitAt (scan G D i) k := by
  rw [scan_succ, bitAt_scanStep (by rw [length_scan (by omega)]; exact hi)]

/-- Working copies that follow the pseudocode of R103 are the copies of the scan, while the window fits. -/
theorem bitAt_scan_eq {W : Nat → Nat → Bool} (hstart : ∀ k, W 0 k = bitAt D k)
    (hstep : ∀ i k, W (i + 1) k =
      if W i i = true ∧ i ≤ k ∧ k < i + G.length then Bool.xor (W i k) (bitAt G (k - i)) else W i k)
    (hi : i + G.length ≤ D.length + 1) (k : Nat) : bitAt (scan G D i) k = W i k := by
  induction i generalizing k with
  | zero => exact (hstart k).symm
  | succ i ih =>
    have ih := ih (by omega)
    rw [bitAt_scan_succ (by omega), hstep, ih, ih]

/-- Settles O10: the scan's copies follow the same recursion, and the remainder is the end of the last. -/
theorem divisionScansLeftToRight : Obligations.DivisionScansLeftToRight := by
  intro D G W hG hle hstart hstep
  obtain ⟨hpos, -⟩ := hG
  refine ⟨length_mod2div hpos hle, fun j _ => ?_⟩
  rw [mod2div, bitAt_drop, bitAt_scan_eq hstart hstep (by omega)]

/-- A window position clears its leading bit and leaves every bit before it. -/
theorem bitAt_scan_of_lt (hG : WellFormedGen G) (hi : i + G.length ≤ D.length + 1) (hk : k < i) :
    bitAt (scan G D i) k = false := by
  obtain ⟨hpos, hlead⟩ := hG
  induction i with
  | zero => omega
  | succ i ih =>
    rw [bitAt_scan_succ (by omega)]
    rcases Nat.lt_succ_iff_lt_or_eq.1 hk with hlt | rfl
    · rw [if_neg (by omega), ih (by omega) hlt]
    · cases hb : bitAt (scan G D k) k
      · simp
      · rw [if_pos ⟨rfl, le_rfl, by omega⟩, Nat.sub_self, hlead]
        rfl

/-- Settles O15: both ranges lie before the window position that comes next. -/
theorem scanClearsLeadingBits : Obligations.ScanClearsLeadingBits := fun _ _ hG hle =>
  ⟨fun _ hi _ hk => bitAt_scan_of_lt hG (by omega) (Nat.lt_succ_of_le hk),
    fun _ hk => bitAt_scan_of_lt hG (by omega) (Nat.lt_succ_of_le hk)⟩

/-- The last working copy is zeros, then the remainder. -/
theorem scan_eq_zeros_append_mod2div (hG : WellFormedGen G) (hle : G.length ≤ D.length) :
    scan G D (D.length - G.length + 1) =
      zeros (D.length - G.length + 1) ++ mod2div D D.length G G.length := by
  have hpos := hG.1
  refine ext_bitAt ?_ fun k _ => ?_
  · rw [length_scan (by omega), List.length_append, length_zeros, length_mod2div hpos hle]
    omega
  · rw [bitAt_append, length_zeros]
    split
    · next hk => rw [bitAt_scan_of_lt hG (by omega) hk, bitAt_zeros]
    · next hk => rw [mod2div, bitAt_drop, Nat.add_sub_cancel' (not_lt.1 hk)]

end

end Sys2Proof.Machine
end

section
/-! SUPPORT. Sequences as polynomials over the two-element field (spec 40_crc.md R108): length bounds the
degree, append and xor are shift and sum, and a sequence of known length is its polynomial. -/

namespace Sys2Proof.Machine

open Polynomial

@[simp] theorem poly_nil : poly [] = 0 := rfl

@[simp] theorem poly_false_cons (S : BitSeq) : poly (false :: S) = poly S := by simp [poly]

@[simp] theorem poly_true_cons (S : BitSeq) : poly (true :: S) = X ^ S.length + poly S := by simp [poly]

@[simp] theorem poly_zeros (n : Nat) : poly (zeros n) = 0 := by
  induction n with
  | zero => rfl
  | succ n ih => exact (poly_false_cons (zeros n)).trans ih

theorem degree_X_pow_add_of_degree_lt {p : (ZMod 2)[X]} {n : ℕ} (h : p.degree < n) :
    (X ^ n + p).degree = (n : WithBot ℕ) := by
  rw [degree_add_eq_left_of_degree_lt (by rwa [degree_X_pow]), degree_X_pow]

theorem degree_poly_lt (S : BitSeq) : (poly S).degree < S.length := by
  induction S with
  | nil => simp
  | cons b S ih =>
    have hgrow : (S.length : WithBot ℕ) < (b :: S).length := by exact_mod_cast Nat.lt_succ_self S.length
    cases b with
    | false => rw [poly_false_cons]; exact ih.trans hgrow
    | true => rw [poly_true_cons, degree_X_pow_add_of_degree_lt ih]; exact hgrow

theorem monic_poly_true_cons (S : BitSeq) : (poly (true :: S)).Monic := by
  rw [poly_true_cons]
  exact monic_X_pow_add (degree_poly_lt S)

theorem degree_poly_true_cons (S : BitSeq) : (poly (true :: S)).degree = (S.length : WithBot ℕ) := by
  rw [poly_true_cons]
  exact degree_X_pow_add_of_degree_lt (degree_poly_lt S)

theorem poly_eq_zero_iff (S : BitSeq) : poly S = 0 ↔ true ∉ S := by
  induction S with
  | nil => simp
  | cons b S ih =>
    cases b with
    | false => simpa using ih
    | true => simp [(monic_poly_true_cons S).ne_zero, -poly_true_cons]

theorem poly_append (S T : BitSeq) : poly (S ++ T) = poly S * X ^ T.length + poly T := by
  induction S with
  | nil => simp
  | cons b S ih =>
    cases b with
    | false => simpa using ih
    | true =>
      rw [List.cons_append, poly_true_cons, poly_true_cons, ih, List.length_append]
      ring

/-- The sum in characteristic two follows the xor of the two bits that choose its terms. -/
theorem ite_xor_eq_add (b c : Bool) (p : (ZMod 2)[X]) :
    (if Bool.xor b c then p else 0) = (if b then p else 0) + (if c then p else 0) := by
  cases b <;> cases c <;> simp [CharTwo.add_self_eq_zero]

theorem poly_xorSeq {S T : BitSeq} (h : S.length = T.length) : poly (xorSeq S T) = poly S + poly T := by
  induction S generalizing T with
  | nil => simp [List.length_eq_zero_iff.1 h.symm, xorSeq]
  | cons b S ih =>
    cases T with
    | nil => cases h
    | cons c T =>
      have hl : S.length = T.length := Nat.succ.inj h
      have hx : (xorSeq S T).length = T.length := by rw [length_xorSeq, hl, min_self]
      change poly (Bool.xor b c :: xorSeq S T) = _
      rw [poly, poly, poly, hx, hl, ite_xor_eq_add, ih hl, add_add_add_comm]

/-- Two sequences of one length with the same polynomial are equal: their xor has no 1. -/
theorem eq_of_poly_eq {S T : BitSeq} (hl : S.length = T.length) (h : poly S = poly T) : S = T := by
  have hnone : true ∉ xorSeq S T := by
    rw [← poly_eq_zero_iff, poly_xorSeq hl, h, CharTwo.add_self_eq_zero]
  refine ext_bitAt hl fun i hi => ?_
  have hi' : i < (xorSeq S T).length := by simpa [← hl] using hi
  have hbit : bitAt (xorSeq S T) i = false := by
    rw [bitAt_eq_getElem hi', Bool.eq_false_iff]
    exact fun hb => hnone (hb ▸ List.getElem_mem hi')
  simpa [bitAt_xorSeq hl] using hbit

theorem poly_flipAt {S : BitSeq} {k : Nat} (hk : k < S.length) :
    poly (flipAt S k) = poly S + X ^ (S.length - 1 - k) := by
  have hunit : flipAt S k = xorSeq S (zeros k ++ true :: zeros (S.length - 1 - k)) := by
    have hl : S.length = (zeros k ++ true :: zeros (S.length - 1 - k)).length := by simp; omega
    refine ext_bitAt (by rw [length_flipAt, length_xorSeq, ← hl, min_self]) fun i _ => ?_
    rw [bitAt_flipAt hk, bitAt_xorSeq hl, bitAt_append, length_zeros]
    rcases lt_trichotomy i k with h | rfl | h
    · simp [h, h.ne']
    · simp
    · obtain ⟨j, rfl⟩ := Nat.exists_eq_add_of_lt h
      simp [Nat.add_assoc]
  rw [hunit, poly_xorSeq (by simp; omega), poly_append, poly_true_cons]
  simp

end Sys2Proof.Machine
end

section
/-! SUPPORT. The division as a residue (spec 40_crc.md R108 to R112): the scan changes the working copy by
multiples of the generator, so the remainder is the residue of the dividend; linearity, built frames and
the detection of single errors are then divisibility by the generator. -/

namespace Sys2Proof.Machine

open Polynomial

/-! ### The remainder is the residue (R108) -/

section
variable {G : BitSeq}

theorem exists_eq_true_cons (hG : WellFormedGen G) : ∃ T, G = true :: T := by
  obtain ⟨hpos, hlead⟩ := hG
  cases G with
  | nil => simp at hpos
  | cons b T => exact ⟨T, congrArg (· :: T) hlead⟩

theorem monic_poly_of_wellFormedGen (hG : WellFormedGen G) : (poly G).Monic := by
  obtain ⟨T, rfl⟩ := exists_eq_true_cons hG
  exact monic_poly_true_cons T

theorem degree_poly_of_wellFormedGen (hG : WellFormedGen G) :
    (poly G).degree = ((G.length - 1 : ℕ) : WithBot ℕ) := by
  obtain ⟨T, rfl⟩ := exists_eq_true_cons hG
  exact degree_poly_true_cons T

/-- A window xored with the generator is the copy plus the generator's polynomial, shifted to the window. -/
theorem poly_xorWindow {W : BitSeq} {i : Nat} (h : i + G.length ≤ W.length) :
    poly (xorWindow G W i) = poly W + poly G * X ^ (W.length - (i + G.length)) := by
  have hl : W.length = (zeros i ++ (G ++ zeros (W.length - (i + G.length)))).length := by simp; omega
  have hshift : xorWindow G W i = xorSeq W (zeros i ++ (G ++ zeros (W.length - (i + G.length)))) := by
    refine ext_bitAt (by rw [length_xorWindow h, length_xorSeq, ← hl, min_self]) fun k _ => ?_
    rw [bitAt_xorWindow h, bitAt_xorSeq hl, bitAt_append, bitAt_append, length_zeros]
    by_cases h₁ : k < i
    · simp [h₁, Nat.not_le.2 h₁]
    · by_cases h₂ : k < i + G.length
      · have hin : k - i < G.length := by omega
        simp [h₁, h₂, hin, not_lt.1 h₁]
      · have hout : ¬ k - i < G.length := by omega
        simp [h₁, h₂, hout]
  rw [hshift, poly_xorSeq hl, poly_append, poly_append]
  simp

theorem dvd_poly_scanStep_sub {W : BitSeq} {i : Nat} (h : i + G.length ≤ W.length) :
    poly G ∣ poly (scanStep G W i) - poly W := by
  unfold scanStep
  split
  · rw [poly_xorWindow h, add_sub_cancel_left]
    exact dvd_mul_right _ _
  · rw [sub_self]
    exact dvd_zero _

theorem poly_scan_modByMonic {D : BitSeq} {k : Nat} (hG : WellFormedGen G)
    (hk : k + G.length ≤ D.length + 1) : poly (scan G D k) %ₘ poly G = poly D %ₘ poly G := by
  induction k with
  | zero => rfl
  | succ k ih =>
    rw [← ih (by omega), scan_succ]
    refine modByMonic_eq_of_dvd_sub (monic_poly_of_wellFormedGen hG) (dvd_poly_scanStep_sub ?_)
    rw [length_scan (by omega)]
    omega

/-- A sequence shorter than the generator is its own residue. -/
theorem poly_modByMonic_self {R : BitSeq} (hG : WellFormedGen G) (hR : R.length = G.length - 1) :
    poly R %ₘ poly G = poly R := by
  rw [modByMonic_eq_self_iff (monic_poly_of_wellFormedGen hG), degree_poly_of_wellFormedGen hG, ← hR]
  exact degree_poly_lt R

end

/-- The operands of a division that the checks accept, with their lengths (40_crc.md R102, R103). -/
structure DivOperands (D : BitSeq) (L : Nat) (G : BitSeq) (g : Nat) : Prop where
  length_dividend : D.length = L
  length_divisor  : G.length = g
  divisor_wf      : WellFormedGen G
  divisor_le      : g ≤ L

/-- The operands of a CRC command with good inputs, its frame or another of the same length. -/
theorem CrcInputsGood.divOperands {f : Fields} (h : CrcInputsGood f) {F : BitSeq} (hF : F.length = f.lena) :
    DivOperands F f.lena (seqB f) f.lenb := by
  obtain ⟨hwf, hle⟩ := crcInputsGood_iff.1 h
  exact ⟨hF, length_seqB f, hwf, hle⟩

namespace DivOperands

variable {D G : BitSeq} {L g : Nat}

theorem with_dividend (h : DivOperands D L G g) {E : BitSeq} (hE : E.length = L) : DivOperands E L G g :=
  { h with length_dividend := hE }

theorem monic_poly (h : DivOperands D L G g) : (poly G).Monic := monic_poly_of_wellFormedGen h.divisor_wf

theorem one_le (h : DivOperands D L G g) : 1 ≤ g := h.length_divisor ▸ h.divisor_wf.1

theorem length_mod2div (h : DivOperands D L G g) : (mod2div D L G g).length = g - 1 := by
  obtain ⟨rfl, rfl, hG, hle⟩ := h
  exact Machine.length_mod2div hG.1 hle

theorem poly_modByMonic_self (h : DivOperands D L G g) {R : BitSeq} (hR : R.length = g - 1) :
    poly R %ₘ poly G = poly R :=
  Machine.poly_modByMonic_self h.divisor_wf (h.length_divisor ▸ hR)

theorem poly_mod2div (h : DivOperands D L G g) : poly (mod2div D L G g) = poly D %ₘ poly G := by
  have hself := h.poly_modByMonic_self h.length_mod2div
  obtain ⟨rfl, rfl, hG, hle⟩ := h
  have hpos := hG.1
  rw [← poly_scan_modByMonic hG (k := D.length - G.length + 1) (by omega),
    scan_eq_zeros_append_mod2div hG hle, poly_append, poly_zeros, zero_mul, zero_add, hself]

/-- A frame verifies iff the generator divides it. -/
theorem verifies_iff_dvd (h : DivOperands D L G g) : true ∉ mod2div D L G g ↔ poly G ∣ poly D := by
  rw [← poly_eq_zero_iff, h.poly_mod2div, modByMonic_eq_zero_iff_dvd h.monic_poly]

/-- The remainder is the one sequence of `g-1` bits congruent to the dividend. -/
theorem mod2div_eq_iff_dvd (h : DivOperands D L G g) {R : BitSeq} (hR : R.length = g - 1) :
    mod2div D L G g = R ↔ poly G ∣ poly D + poly R := by
  rw [← modByMonic_eq_zero_iff_dvd h.monic_poly, add_modByMonic, h.poly_modByMonic_self hR,
    ← h.poly_mod2div, CharTwo.add_eq_zero]
  exact ⟨congrArg poly, eq_of_poly_eq (h.length_mod2div.trans hR.symm)⟩

end DivOperands

/-- Settles O16: the scan keeps the residue, and what it leaves is shorter than the generator. -/
theorem remainderIsPolynomialResidue : Obligations.RemainderIsPolynomialResidue := fun _ _ hG hle =>
  have h : DivOperands _ _ _ _ := ⟨rfl, rfl, hG, hle⟩
  ⟨h.poly_mod2div, h.length_mod2div⟩

/-! ### Linearity (R109) -/

theorem DivOperands.mod2div_xorSeq {D E G : BitSeq} {L g : Nat} (hD : DivOperands D L G g)
    (hE : DivOperands E L G g) :
    mod2div (xorSeq D E) L G g = xorSeq (mod2div D L G g) (mod2div E L G g) := by
  have hl : D.length = E.length := hD.length_dividend.trans hE.length_dividend.symm
  have hR : (mod2div D L G g).length = (mod2div E L G g).length :=
    hD.length_mod2div.trans hE.length_mod2div.symm
  have hX : DivOperands (xorSeq D E) L G g :=
    hD.with_dividend (by rw [length_xorSeq, ← hl, min_self, hD.length_dividend])
  refine eq_of_poly_eq (by rw [hX.length_mod2div, length_xorSeq, ← hR, min_self, hD.length_mod2div]) ?_
  rw [hX.poly_mod2div, poly_xorSeq hl, add_modByMonic, poly_xorSeq hR, hD.poly_mod2div, hE.poly_mod2div]

/-- Settles O17: the residue is additive, and a valid frame adds a multiple of the generator. -/
theorem divisionIsLinear : Obligations.DivisionIsLinear := by
  refine ⟨fun D E G hG hle hl => ?_, fun f F E s hs hgood hF hE hseq hv => ?_⟩
  · have hD : DivOperands D D.length G G.length := ⟨rfl, rfl, hG, hle⟩
    rw [← hl]
    exact hD.mod2div_xorSeq (hD.with_dividend hl.symm)
  · have hop := hgood.divOperands hF
    rw [hop.verifies_iff_dvd] at hv
    refine answers_crcVfy_of_flag_iff hgood ?_ s hs
    rw [decide_eq_true_iff, (hgood.divOperands hE).verifies_iff_dvd,
      (hgood.divOperands (length_seqA f)).verifies_iff_dvd, hseq, poly_xorSeq (hF.trans hE.symm),
      dvd_add_right hv]

/-! ### Built frames (R110) -/

/-- The check bits that make a frame verify are the remainder of the payload followed by zeros. -/
theorem DivOperands.verifies_append_iff {P R G : BitSeq} {L g : Nat}
    (h : DivOperands (P ++ zeros (g - 1)) L G g) (hR : R.length = g - 1) :
    true ∉ mod2div (P ++ R) L G g ↔ mod2div (P ++ zeros (g - 1)) L G g = R := by
  have hframe : DivOperands (P ++ R) L G g :=
    h.with_dividend (by simpa [hR] using h.length_dividend)
  rw [hframe.verifies_iff_dvd, h.mod2div_eq_iff_dvd hR, poly_append, poly_append, poly_zeros, add_zero,
    length_zeros, hR]

/-- CRC.VFYX of a frame that verifies answers its leading elements. -/
theorem answers_crcVfyx_of_seqA_eq_append {f : Fields} {P R : BitSeq} (hgood : CrcInputsGood f)
    (hA : seqA f = P ++ R) (hP : f.lena - f.lenb + 1 = P.length)
    (hv : true ∉ mod2div (seqA f) f.lena (seqB f) f.lenb) :
    Answers (.crcVfyx f) ⟨.ok, .none, false, 0, P.length, 0, toField P⟩ := by
  have hle : P.length ≤ f.lena := by rw [← length_seqA, hA, List.length_append]; exact Nat.le_add_right _ _
  have hpay : f.seqa % 2 ^ P.length = toField P := by
    rw [← toField_take f.lena P.length f.seqa hle]
    exact congrArg toField (by rw [← seqA, hA, List.take_left])
  have := answers_crcVfyx_of_verified hgood hv
  rwa [hP, hpay] at this

/-- Settles O18: the remainder of the padded payload is the one sequence of check bits that verifies. -/
theorem builtFrameVerifies : Obligations.BuiltFrameVerifies := by
  intro P G d v s hs hG hP hdg hvg hdG hvG hdL hdA
  have hop : DivOperands (P ++ zeros (G.length - 1)) (P.length + (G.length - 1)) G G.length :=
    ⟨by simp, rfl, hG, by omega⟩
  have hdgood : CrcInputsGood d := crcInputsGood_iff.2 ⟨hdG ▸ hG, by omega⟩
  have hdiv := answers_crcDiv_of_good hdgood
  rw [hdA, hdL, hdG, hdg] at hdiv
  refine ⟨_, hop.length_mod2div, hdiv s hs, fun hvL hvA => ?_, fun R' hR' hv =>
    ((hop.verifies_append_iff hR').1 hv).symm⟩
  have hvgood : CrcInputsGood v := crcInputsGood_iff.2 ⟨hvG ▸ hG, by omega⟩
  have hv : true ∉ mod2div (seqA v) v.lena (seqB v) v.lenb := by
    rw [hvA, hvL, hvG, hvg]
    exact (hop.verifies_append_iff hop.length_mod2div).2 rfl
  exact ⟨answers_crcVfy_of_flag_iff hvgood (iff_of_true rfl hv) s hs,
    answers_crcVfyx_of_seqA_eq_append hvgood hvA (by have := hop.one_le; omega) hv s hs⟩

/-! ### Generators with one 1 bit, and single errors (R111, R112) -/

theorem poly_true_cons_zeros (n : Nat) : poly (true :: zeros n) = X ^ n := by simp

theorem count_true_eq_one_iff {G : BitSeq} (hG : WellFormedGen G) :
    G.count true = 1 ↔ G = true :: zeros (G.length - 1) := by
  obtain ⟨T, rfl⟩ := exists_eq_true_cons hG
  have hone : (true :: T).count true = 1 ↔ true ∉ T := by simp [List.count_eq_zero]
  rw [hone, ← poly_eq_zero_iff]
  constructor
  · intro hT
    exact congrArg (true :: ·) (eq_of_poly_eq (by simp) (hT.trans (poly_zeros _).symm))
  · intro hT
    rw [(List.cons.inj hT).2, poly_zeros]

/-- The divisors of a power of `X` are the powers below it: no other generator misses a single error. -/
theorem poly_dvd_X_pow_iff {G : BitSeq} (hG : WellFormedGen G) (j : Nat) :
    poly G ∣ X ^ j ↔ G.count true = 1 ∧ G.length ≤ j + 1 := by
  have hpos := hG.1
  rw [count_true_eq_one_iff hG]
  constructor
  · intro hdvd
    obtain ⟨i, hij, hass⟩ := (dvd_prime_pow prime_X j).1 hdvd
    have hpow : poly G = X ^ i :=
      eq_of_monic_of_associated (monic_poly_of_wellFormedGen hG) (monic_X_pow i) hass
    have hi : G.length - 1 = i := by
      have := degree_poly_of_wellFormedGen hG
      rw [hpow, degree_X_pow] at this
      exact_mod_cast this.symm
    refine ⟨eq_of_poly_eq (by simp; omega) ?_, by omega⟩
    rw [poly_true_cons_zeros, hpow, hi]
  · rintro ⟨hone, hle⟩
    rw [hone, poly_true_cons_zeros]
    exact pow_dvd_pow X (by omega)

/-- A valid frame with one bit flipped verifies only with one 1 bit in the generator, and then when the
flipped bit stands before the trailing `g-1`. -/
theorem DivOperands.verifies_flipAt_iff {F G : BitSeq} {L g k : Nat} (h : DivOperands F L G g) (hk : k < L)
    (hv : true ∉ mod2div F L G g) :
    true ∉ mod2div (flipAt F k) L G g ↔ G.count true = 1 ∧ k ≤ L - g := by
  have hflip : DivOperands (flipAt F k) L G g :=
    h.with_dividend ((length_flipAt F k).trans h.length_dividend)
  rw [h.verifies_iff_dvd] at hv
  rw [hflip.verifies_iff_dvd, poly_flipAt (h.length_dividend.symm ▸ hk), dvd_add_right hv,
    poly_dvd_X_pow_iff h.divisor_wf, h.length_dividend, h.length_divisor]
  have hle := h.divisor_le
  have hrange : g ≤ L - 1 - k + 1 ↔ k ≤ L - g := by omega
  rw [hrange]

/-- Settles O19: a flipped bit adds a power of `X`, which only a power of `X` divides. -/
theorem singleBitErrorDetection : Obligations.SingleBitErrorDetection := by
  intro F k f s hs hgood hF hk hseq hv
  have hiff := (hgood.divOperands hF).verifies_flipAt_iff hk hv
  rw [← hseq] at hiff
  constructor
  · intro htwo
    have hnot : true ∈ mod2div (seqA f) f.lena (seqB f) f.lenb := by
      by_contra hmem
      obtain ⟨hone, -⟩ := hiff.1 hmem
      omega
    exact ⟨answers_crcVfy_of_flag_iff hgood (iff_of_false Bool.false_ne_true (not_not.2 hnot)) s hs,
      answers_crcVfyx_of_not_verified hgood hnot s hs⟩
  · intro hone
    refine answers_crcVfy_of_flag_iff hgood ?_ s hs
    rw [decide_eq_true_iff, hiff, and_iff_right hone]

/-- With a power of `X` for a generator the division is a cut. -/
theorem DivOperands.mod2div_true_cons_zeros {D : BitSeq} {L g : Nat}
    (h : DivOperands D L (true :: zeros (g - 1)) g) :
    mod2div D L (true :: zeros (g - 1)) g = D.drop (L - g + 1) := by
  have hlen : (D.drop (L - g + 1)).length = g - 1 := by
    have := h.one_le
    have := h.divisor_le
    rw [List.length_drop, h.length_dividend]
    omega
  have hsplit : poly D = poly (D.take (L - g + 1)) * X ^ (g - 1) + poly (D.drop (L - g + 1)) := by
    rw [← hlen, ← poly_append, List.take_append_drop]
  rw [h.mod2div_eq_iff_dvd hlen, hsplit, add_assoc, CharTwo.add_self_eq_zero, add_zero,
    poly_true_cons_zeros]
  exact dvd_mul_left _ _

theorem true_notMem_drop_seqA_iff (f : Fields) (n : Nat) :
    true ∉ (seqA f).drop n ↔ ∀ k, n ≤ k → k < f.lena → f.seqa.testBit k = false := by
  have hmem : true ∈ (seqA f).drop n ↔ ∃ k, n ≤ k ∧ k < f.lena ∧ f.seqa.testBit k = true := by
    rw [List.mem_iff_getElem]
    constructor
    · rintro ⟨j, hj, hbit⟩
      have hlt : n + j < f.lena := by simp at hj; omega
      rw [← bitAt_eq_getElem, bitAt_drop, bitAt_seqA f hlt] at hbit
      exact ⟨n + j, Nat.le_add_right n j, hlt, hbit⟩
    · rintro ⟨k, hn, hk, hbit⟩
      have hj : k - n < ((seqA f).drop n).length := by simp; omega
      refine ⟨k - n, hj, ?_⟩
      rw [← bitAt_eq_getElem, bitAt_drop, Nat.add_sub_cancel' hn, bitAt_seqA f hk, hbit]
  simp [hmem]

/-- Settles O20: with the generator `1` followed by zeros the remainder is the end of the dividend, which
is empty when no zeros follow. -/
theorem degenerateGenerators : Obligations.DegenerateGenerators := by
  refine ⟨fun D g hpos hle => ?_, fun f s hs hgood hgen => ?_, fun f s hs hg hlead hlen => ?_⟩
  · exact DivOperands.mod2div_true_cons_zeros ⟨rfl, by simp; omega, ⟨by simp, rfl⟩, hle⟩
  · have hop := hgood.divOperands (length_seqA f)
    have hcut : mod2div (seqA f) f.lena (seqB f) f.lenb = (seqA f).drop (f.lena - f.lenb + 1) := by
      rw [hgen] at hop ⊢
      exact hop.mod2div_true_cons_zeros
    refine ⟨decide (true ∉ mod2div (seqA f) f.lena (seqB f) f.lenb),
      answers_crcVfy_of_flag_iff hgood decide_eq_true_iff s hs, ?_⟩
    rw [decide_eq_true_iff, hcut]
    exact true_notMem_drop_seqA_iff f _
  · have hgood : CrcInputsGood f := ⟨hg.ge, hlead, hg.le.trans hlen⟩
    have hempty : mod2div (seqA f) f.lena (seqB f) f.lenb = [] := by
      rw [← List.length_eq_zero_iff, (hgood.divOperands (length_seqA f)).length_mod2div, hg]
    have hv : true ∉ mod2div (seqA f) f.lena (seqB f) f.lenb := by simp [hempty]
    have hdiv := answers_crcDiv_of_good hgood
    have hpay := answers_crcVfyx_of_verified hgood hv
    rw [hempty, hg] at hdiv
    rw [hg, Nat.sub_add_cancel hlen] at hpay
    exact ⟨hdiv s hs, answers_crcVfy_of_flag_iff hgood (iff_of_true rfl hv) s hs, hpay s hs⟩

end Sys2Proof.Machine
end

section
/-! SUPPORT. The parity layout of a block (spec 41_hamming.md R131, R133, R134, R142): the count `K(n)` as
the bound of the exponents, the positions it separates, and the redundancy predicate of HAM.VAL. -/

namespace Sys2Proof.Machine

/-! ### `K(n)` bounds the exponents of the parity positions (R131) -/

section
variable {n : Nat}

theorem two_pow_le_iff_lt_parityCount (n j : Nat) : 2 ^ j ≤ n ↔ j < parityCount n := by
  rcases Nat.eq_zero_or_pos n with rfl | hn
  · exact iff_of_false (Nat.two_pow_pos j).not_ge (Nat.not_lt_zero j)
  · rw [parityCount_eq_log_add_one hn, Nat.lt_succ_iff, Nat.le_log_iff_pow_le Nat.one_lt_two hn.ne']

theorem parityCount_le_iff {k : Nat} : parityCount n ≤ k ↔ n < 2 ^ k := by
  rw [← not_lt, ← two_pow_le_iff_lt_parityCount, not_le]

theorem lt_two_pow_parityCount (n : Nat) : n < 2 ^ parityCount n := parityCount_le_iff.1 le_rfl

/-- A parity position that comes next has the count of those before it as its exponent. -/
theorem succ_eq_two_pow_parityCount (h : isPow2 (n + 1) = true) : n + 1 = 2 ^ parityCount n := by
  obtain ⟨k, hk⟩ := (isPow2_iff_exists _).1 h
  have hle : parityCount n ≤ k := parityCount_le_iff.2 (by omega)
  have hge : 2 ^ k ≤ 2 ^ parityCount n := hk ▸ lt_two_pow_parityCount n
  rw [hk, hle.antisymm ((Nat.pow_le_pow_iff_right Nat.one_lt_two).1 hge)]

theorem parityCount_succ_of_isPow2 (h : isPow2 (n + 1) = true) :
    parityCount (n + 1) = parityCount n + 1 := by
  simp [parityCount_succ, h]

theorem parityCount_succ_of_not_isPow2 (h : isPow2 (n + 1) = false) :
    parityCount (n + 1) = parityCount n := by
  simp [parityCount_succ, h]

theorem mem_payloadPositions {q : Nat} :
    q ∈ payloadPositions n ↔ 1 ≤ q ∧ q ≤ n ∧ isPow2 q = false := by
  rw [payloadPositions, List.mem_filter, mem_positions, Bool.not_eq_true', and_assoc]

theorem mem_parityPositions_iff_exponent {q : Nat} :
    q ∈ parityPositions n ↔ ∃ j < parityCount n, q = 2 ^ j := by
  rw [mem_parityPositions]
  constructor
  · rintro ⟨hq, j, rfl⟩
    exact ⟨j, (two_pow_le_iff_lt_parityCount n j).1 hq, rfl⟩
  · rintro ⟨j, hj, rfl⟩
    exact ⟨(two_pow_le_iff_lt_parityCount n j).2 hj, j, rfl⟩

end

/-- Settles O24: a power of two is in the block iff its exponent is below the count. -/
theorem parityAndPayloadPositions : Obligations.ParityAndPayloadPositions := by
  intro n q
  refine ⟨mem_parityPositions_iff_exponent, ?_, rfl, ?_⟩
  · rw [mem_payloadPositions, ← isPow2_iff_exists, Bool.not_eq_true]
  · rw [← length_payload [], length_payload_eq_sub_parityCount]

/-! ### The redundancy predicate (R134, R142) -/

theorem hamVal_eq (f : Fields) : hamVal f = ⟨.ok, .none, redundancyOk f.x f.y, 0, 0, 0, 0⟩ := rfl

/-- Settles O21: the shift is the exact predicate, and `2^r` is at least `r + 1`. -/
theorem hamValAnswersPredicate : Obligations.HamValAnswersPredicate := by
  intro f s hs
  have hflag : redundancyOk f.x f.y = decide (2 ^ f.y ≥ f.x + f.y + 1) :=
    Bool.eq_iff_iff.2 ((redundancyOk_iff f.x f.y).trans decide_eq_true_iff.symm)
  have hpow : f.y < 2 ^ f.y := Nat.lt_two_pow_self
  exact ⟨(answers_hamVal f _).2 (by rw [hamVal_eq, hflag]) s hs, by omega⟩

theorem layoutConsistent_iff_of_le {n m : Nat} (h : m ≤ n) :
    LayoutConsistent n m ↔ parityCount n = n - m := by
  have := parityCount_le n
  unfold LayoutConsistent
  omega

theorem LayoutConsistent.le {n m : Nat} (h : LayoutConsistent n m) : m ≤ n :=
  Eq.trans_le h (Nat.sub_le n _)

/-- The redundancy of a consistent layout is `K(n)`, and `n` is below the power with that exponent. -/
theorem LayoutConsistent.redundancy {n m : Nat} (h : LayoutConsistent n m) :
    m + (n - m) + 1 ≤ 2 ^ (n - m) := by
  have hlt := lt_two_pow_parityCount n
  rw [(layoutConsistent_iff_of_le h.le).1 h] at hlt
  have := h.le
  omega

end Sys2Proof.Machine
end

section
/-! SUPPORT. A block bit by bit (spec 41_hamming.md R132, R137): what a flipped and an appended bit do to
the positions, the syndrome and the payload, and each of these two as the rules describe it. -/

namespace Sys2Proof.Machine

section
variable {E F : BitSeq} {n q : Nat}

/-! ### Positions -/

theorem posAt_succ (E : BitSeq) (i : Nat) : posAt E (i + 1) = bitAt E i := rfl

theorem posAt_flipAt (h₁ : 1 ≤ q) (h₂ : q ≤ E.length) {p : Nat} (hp : 1 ≤ p) :
    posAt (flipAt E (q - 1)) p = Bool.xor (posAt E p) (decide (q = p)) := by
  have : q - 1 = p - 1 ↔ q = p := by omega
  rw [posAt, bitAt_flipAt (by omega), decide_eq_decide.2 this, posAt]

theorem flipAt_flipAt (E : BitSeq) (i : Nat) : flipAt (flipAt E i) i = E := by
  have hid : (fun b : Bool => !b) ∘ (fun b : Bool => !b) = id := funext Bool.not_not
  rw [flipAt, flipAt, List.modify_modify_eq, hid, List.modify_id]

theorem posAt_append_of_le (b : Bool) (h₁ : 1 ≤ q) (h₂ : q ≤ E.length) :
    posAt (E ++ [b]) q = posAt E q := by
  rw [posAt, bitAt_append, if_pos (by omega), posAt]

theorem posAt_append_length (hE : E.length = n) (b : Bool) : posAt (E ++ [b]) (n + 1) = b := by
  rw [posAt_succ, bitAt_append, hE, if_neg (Nat.lt_irrefl n), Nat.sub_self, bitAt_cons_zero]

/-! ### The syndrome (R132) -/

theorem syndrome_congr (h : ∀ q, 1 ≤ q → q ≤ n → posAt E q = posAt F q) :
    syndrome E n = syndrome F n := by
  induction n with
  | zero => rfl
  | succ n ih =>
    rw [syndrome_succ, syndrome_succ, ih fun q h₁ h₂ => h q h₁ (Nat.le_succ_of_le h₂),
      h (n + 1) (Nat.le_add_left 1 n) le_rfl]

theorem syndrome_append (hE : E.length = n) (b : Bool) :
    syndrome (E ++ [b]) (n + 1) = if b then syndrome E n ^^^ (n + 1) else syndrome E n := by
  rw [syndrome_succ, posAt_append_length hE,
    syndrome_congr fun q h₁ h₂ => posAt_append_of_le b h₁ (hE ▸ h₂)]

/-- A flip at a position of the block adds it to the xor or takes it out, which is the same. -/
theorem syndrome_flipAt (h₁ : 1 ≤ q) (h₂ : q ≤ E.length) (n : Nat) :
    syndrome (flipAt E (q - 1)) n = if q ≤ n then syndrome E n ^^^ q else syndrome E n := by
  induction n with
  | zero => rw [if_neg (by omega)]; rfl
  | succ n ih =>
    rw [syndrome_succ, syndrome_succ, ih, posAt_flipAt h₁ h₂ (Nat.le_add_left 1 n)]
    rcases lt_trichotomy q (n + 1) with hlt | rfl | hgt
    · have hle : q ≤ n := Nat.le_of_lt_succ hlt
      simp only [hlt.ne, hlt.le, hle, decide_false, Bool.xor_false, if_true]
      split
      · rw [Nat.xor_assoc, Nat.xor_comm q, Nat.xor_assoc]
      · rfl
    · cases posAt E (n + 1) <;> simp
    · have hn : ¬ q ≤ n := by omega
      simp [hgt.ne', hgt.not_ge, hn]

theorem card_filter_Icc_succ (p : Nat → Prop) [DecidablePred p] (n : Nat) :
    ((Finset.Icc 1 (n + 1)).filter p).card =
      ((Finset.Icc 1 n).filter p).card + if p (n + 1) then 1 else 0 := by
  simp only [Finset.card_filter, Finset.sum_Icc_succ_top (Nat.le_add_left 1 n)]

theorem decide_odd_succ (c : Nat) : decide ((c + 1) % 2 = 1) = !decide (c % 2 = 1) := by
  rw [← decide_not, decide_eq_decide]
  omega

theorem testBit_syndrome_eq_odd (E : BitSeq) (n j : Nat) :
    (syndrome E n).testBit j =
      decide (((Finset.Icc 1 n).filter fun q => posAt E q = true ∧ q.testBit j = true).card % 2 = 1) := by
  induction n with
  | zero => simp
  | succ n ih =>
    rw [syndrome_succ, card_filter_Icc_succ]
    cases posAt E (n + 1)
    · simp [ih]
    · cases hbit : (n + 1).testBit j <;> simp [ih, hbit, decide_odd_succ]

theorem syndrome_lt_two_pow_parityCount (E : BitSeq) (n : Nat) : syndrome E n < 2 ^ parityCount n :=
  syndrome_lt_two_pow E (lt_two_pow_parityCount n)

theorem lt_two_pow_of_le_lmax {p : Params} (h : n ≤ p.lmax) : n < 2 ^ p.lw :=
  (Nat.le_sub_one_iff_lt (Nat.two_pow_pos p.lw)).1 h

/-- Settles O25: each set position adds its own bit `j` to bit `j` of the xor, and every position of the
block has `K(n)` bits. -/
theorem syndromeIsXorOfSetPositions : Obligations.SyndromeIsXorOfSetPositions := fun E n _ =>
  ⟨testBit_syndrome_eq_odd E n, syndrome_lt_two_pow_parityCount E n,
    fun _ hn => parityCount_le_iff.2 (lt_two_pow_of_le_lmax hn)⟩

/-! ### The payload (R137) -/

theorem payload_eq_iff :
    payload E n = payload F n ↔ ∀ q ∈ payloadPositions n, posAt E q = posAt F q :=
  List.map_inj_left

theorem payload_append (hE : E.length = n) (b : Bool) :
    payload (E ++ [b]) (n + 1) = payload E n ++ if isPow2 (n + 1) then [] else [b] := by
  rw [payload_succ, posAt_append_length hE, payload_eq_iff.2 fun q hq => ?_]
  obtain ⟨h₁, h₂, -⟩ := mem_payloadPositions.1 hq
  exact posAt_append_of_le b h₁ (hE ▸ h₂)

/-- The payload of a block begins with the payload of its first positions. -/
theorem exists_payload_eq_append (B : BitSeq) (h : q ≤ n) : ∃ T, payload B n = payload B q ++ T := by
  induction n, h using Nat.le_induction with
  | base => exact ⟨[], (List.append_nil _).symm⟩
  | succ n _ ih =>
    obtain ⟨T, hT⟩ := ih
    exact ⟨_, by rw [payload_succ, hT, List.append_assoc]⟩

/-- At a payload position the payload of the first positions ends with the bit there. -/
theorem payload_succ_of_not_isPow2 (B : BitSeq) (h : isPow2 (n + 1) = false) :
    payload B (n + 1) = payload B n ++ [posAt B (n + 1)] := by
  simp [payload_succ, h]

theorem bitAt_payload (B : BitSeq) (h₁ : 1 ≤ q) (h₂ : q ≤ n) (hq : isPow2 q = false) :
    bitAt (payload B n) (q - parityCount q - 1) = posAt B q := by
  obtain ⟨k, rfl⟩ := Nat.exists_eq_add_of_le' h₁
  have hlen : k + 1 - parityCount (k + 1) - 1 = (payload B k).length := by
    have := parityCount_le k
    rw [length_payload_eq_sub_parityCount, parityCount_succ_of_not_isPow2 hq]
    omega
  obtain ⟨T, hT⟩ := exists_payload_eq_append B h₂
  rw [hT, payload_succ_of_not_isPow2 B hq, List.append_assoc, hlen, bitAt_append,
    if_neg (Nat.lt_irrefl _), Nat.sub_self]
  rfl

end

/-- Settles O28: the payload of the positions before `q` has `q - K(q) - 1` bits, and the bit at `q` is
next. -/
theorem payloadIsNonParityBits : Obligations.PayloadIsNonParityBits := fun B n =>
  ⟨length_payload_eq_sub_parityCount B n, fun _ => bitAt_payload B⟩

end Sys2Proof.Machine
end

section
/-! SUPPORT. What HAM.DEC answers (spec 41_hamming.md R135, R136, R142): one lemma for each outcome of the
checks and of the syndrome, and the rules that say so of every state. -/

namespace Sys2Proof.Machine

/-! ### A failing check (R135) -/

section
variable {f : Fields}

theorem answers_hamDec_of_length_mismatch (h : f.lena ≠ f.x) :
    Answers (.hamDec f) ⟨.invalidInput, .lengthMismatch, false, 0, 0, 0, 0⟩ := by
  rw [answers_hamDec]
  rcases hamDec_cases f with ⟨-, hr⟩ | ⟨hl, -⟩ | ⟨hl, -⟩ | ⟨hl, -⟩ | ⟨hl, -⟩
  · exact hr.symm
  all_goals exact absurd hl h

theorem answers_hamDec_of_layout_mismatch (hl : f.lena = f.x) (h : ¬ LayoutConsistent f.x f.y) :
    Answers (.hamDec f) ⟨.invalidInput, .layoutMismatch, false, 0, 0, 0, 0⟩ := by
  rw [answers_hamDec]
  rcases hamDec_cases f with ⟨hne, -⟩ | ⟨-, -, hr⟩ | ⟨-, hm, -⟩ | ⟨-, hm, -⟩ | ⟨-, hm, -⟩
  · exact absurd hl hne
  · exact hr.symm
  all_goals exact absurd hm h

theorem answers_hamDec_of_mismatch (h : f.lena ≠ f.x ∨ ¬ LayoutConsistent f.x f.y) :
    Answers (.hamDec f) ⟨.invalidInput, if f.lena ≠ f.x then .lengthMismatch else .layoutMismatch,
      false, 0, 0, 0, 0⟩ := by
  by_cases hl : f.lena = f.x
  · rw [if_neg (not_not.2 hl)]
    exact answers_hamDec_of_layout_mismatch hl (h.resolve_left (not_not.2 hl))
  · rw [if_pos hl]
    exact answers_hamDec_of_length_mismatch hl

end

/-- Settles O27: the failing cause is found from the length and the two sizes alone. -/
theorem failedHamCheckReadsNoBlockBit : Obligations.FailedHamCheckReadsNoBlockBit := by
  refine ⟨fun f g hl hx hy hf => ⟨answers_hamDec_of_mismatch hf, ?_⟩, fun _ _ hlt h => hlt.not_ge h.le,
    fun _ _ => layoutConsistent_iff_of_le, fun p f hwf hx => ?_⟩
  · rw [hl, hx] at hf ⊢
    rw [hy] at hf
    exact answers_hamDec_of_mismatch hf
  · have hlen : f.lena < 2 ^ p.lw := lena_lt_of_wf hwf
    exact answers_hamDec_of_length_mismatch ((Nat.le_sub_one_of_lt hlen).trans_lt hx).ne

/-! ### The outcomes with good inputs (R136) -/

/-- The operands of a HAM.DEC that passes the checks: a block `E` with the consistent sizes `n` and `m`. -/
structure DecOperands (f : Fields) (E : BitSeq) (n m : Nat) : Prop where
  lena   : f.lena = n
  total  : f.x = n
  size   : f.y = m
  block  : seqA f = E
  layout : LayoutConsistent n m

namespace DecOperands
variable {f : Fields} {E : BitSeq} {n m : Nat}

/-- After the checks only the syndrome decides. -/
theorem hamDec_cases (h : DecOperands f E n m) :
    (syndrome E n = 0 ∧ hamDec f = ⟨.ok, .none, false, 0, m, 0, toField (payload E n)⟩) ∨
    (0 < syndrome E n ∧ syndrome E n ≤ n ∧ hamDec f = ⟨.ok, .none, false, 1, m, syndrome E n,
      toField (payload (flipAt E (syndrome E n - 1)) n)⟩) ∨
    (n < syndrome E n ∧
      hamDec f = ⟨.uncorrectablePosition, .none, false, 0, 0, syndrome E n, 0⟩) := by
  obtain ⟨hl, rfl, rfl, rfl, hm⟩ := h
  rcases Machine.hamDec_cases f with ⟨hne, -⟩ | ⟨-, hne, -⟩ | ⟨-, -, hr⟩ | ⟨-, -, hr⟩ | ⟨-, -, hr⟩
  · exact absurd hl hne
  · exact absurd hm hne
  · exact .inl hr
  · exact .inr (.inl hr)
  · exact .inr (.inr hr)

theorem answers_of_no_error (h : DecOperands f E n m) (hs : syndrome E n = 0) :
    Answers (.hamDec f) ⟨.ok, .none, false, 0, m, 0, toField (payload E n)⟩ := by
  rw [answers_hamDec]
  rcases h.hamDec_cases with ⟨-, hr⟩ | ⟨hpos, -⟩ | ⟨hlt, -⟩
  · exact hr.symm
  · omega
  · omega

theorem answers_of_correctable (h : DecOperands f E n m) (hpos : 0 < syndrome E n)
    (hle : syndrome E n ≤ n) :
    Answers (.hamDec f) ⟨.ok, .none, false, 1, m, syndrome E n,
      toField (payload (flipAt E (syndrome E n - 1)) n)⟩ := by
  rw [answers_hamDec]
  rcases h.hamDec_cases with ⟨hs, -⟩ | ⟨-, -, hr⟩ | ⟨hlt, -⟩
  · omega
  · exact hr.symm
  · omega

theorem answers_of_uncorrectable (h : DecOperands f E n m) (hlt : n < syndrome E n) :
    Answers (.hamDec f) ⟨.uncorrectablePosition, .none, false, 0, 0, syndrome E n, 0⟩ := by
  rw [answers_hamDec]
  rcases h.hamDec_cases with ⟨hs, -⟩ | ⟨-, hle, -⟩ | ⟨-, hr⟩
  · omega
  · omega
  · exact hr.symm

end DecOperands

/-- Settles O26: by the outcome of the checks, and where the syndrome lies. -/
theorem hamDecAnswersDecode : Obligations.HamDecAnswersDecode := by
  intro f s hs
  refine ⟨fun hl hm => ?_, fun h => answers_hamDec_of_length_mismatch h s hs,
    fun hl h => answers_hamDec_of_layout_mismatch hl h s hs⟩
  have hop : DecOperands f (seqA f) f.x f.y := ⟨hl, rfl, rfl, rfl, hm⟩
  exact ⟨fun h => hop.answers_of_no_error h s hs, fun h₁ h₂ => hop.answers_of_correctable h₁ h₂ s hs,
    fun h => hop.answers_of_uncorrectable h s hs⟩

/-! ### An accepted decode has a valid configuration (R142) -/

theorem layoutConsistent_of_answers {f : Fields} {r : Response} (ha : Answers (.hamDec f) r)
    (hr : r.status ≠ .invalidInput) : LayoutConsistent f.x f.y := by
  by_contra hm
  have hbad := answers_hamDec_of_mismatch (.inr hm)
  rw [answers_hamDec] at ha hbad
  rw [ha, ← hbad] at hr
  exact hr rfl

/-- Settles O33: an accepted decode passed the layout check, and a consistent layout has the redundancy. -/
theorem layoutImpliesRedundancy : Obligations.LayoutImpliesRedundancy := by
  refine ⟨fun n m h => ⟨h.redundancy, (redundancyOk_iff _ _).2 h.redundancy⟩,
    fun f r ha hr v hx hy => ?_, ?_⟩
  · have hm := layoutConsistent_of_answers ha hr
    rw [answers_hamVal, hamVal_eq, hx, hy, (redundancyOk_iff _ _).2 hm.redundancy]
  · unfold LayoutConsistent
    decide

end Sys2Proof.Machine
end

section
/-! SUPPORT. Code words and errors (spec 41_hamming.md R138 to R141): a block is its payload and its
syndrome, of which every pair occurs; and flipping bits adds their positions to the syndrome. -/

namespace Sys2Proof.Machine

section
variable {C E F : BitSeq} {n m q : Nat}

/-! ### A block is its payload and its syndrome (R138) -/

/-- The xor of the payload positions that hold a 1: `t` in the construction of R138. -/
def payloadXor (E : BitSeq) (n : Nat) : Nat :=
  ((payloadPositions n).filter (posAt E)).foldl (· ^^^ ·) 0

theorem payloadXor_succ_of_isPow2 (E : BitSeq) (h : isPow2 (n + 1) = true) :
    payloadXor E (n + 1) = payloadXor E n := by
  simp [payloadXor, payloadPositions_succ, h]

theorem payloadXor_succ_of_not_isPow2 (E : BitSeq) (h : isPow2 (n + 1) = false) :
    payloadXor E (n + 1) =
      if posAt E (n + 1) then payloadXor E n ^^^ (n + 1) else payloadXor E n := by
  cases hb : posAt E (n + 1) <;> simp [payloadXor, payloadPositions_succ, h, hb]

theorem payloadXor_congr (h : payload E n = payload F n) : payloadXor E n = payloadXor F n := by
  rw [payloadXor, payloadXor, List.filter_congr (payload_eq_iff.1 h)]

/-- A parity position has one bit, so it is the only one of them to change bit `j` of the syndrome. -/
theorem testBit_syndrome (E : BitSeq) (n j : Nat) :
    (syndrome E n).testBit j =
      Bool.xor (decide (2 ^ j ≤ n) && posAt E (2 ^ j)) ((payloadXor E n).testBit j) := by
  induction n with
  | zero => simp [payloadXor, payloadPositions]
  | succ n ih =>
    rw [syndrome_succ]
    cases hpow : isPow2 (n + 1) with
    | true =>
      rw [payloadXor_succ_of_isPow2 E hpow]
      obtain ⟨k, hk⟩ := (isPow2_iff_exists _).1 hpow
      by_cases hj : j = k
      · subst hj
        have hn : ¬ 2 ^ j ≤ n := by omega
        cases hb : posAt E (2 ^ j) <;> simp [hk, hb, ih, hn, Nat.testBit_two_pow_self]
      · have hne : 2 ^ j ≠ 2 ^ k := fun h => hj (Nat.pow_right_injective le_rfl h)
        have hle : 2 ^ j ≤ n + 1 ↔ 2 ^ j ≤ n := by omega
        rw [decide_eq_decide.2 hle, ← ih]
        split
        · simp [hk, Nat.testBit_two_pow_of_ne (Ne.symm hj)]
        · rfl
    | false =>
      rw [payloadXor_succ_of_not_isPow2 E hpow]
      have hne : 2 ^ j ≠ n + 1 := fun h => by rw [← h, isPow2_two_pow] at hpow; cases hpow
      have hle : 2 ^ j ≤ n + 1 ↔ 2 ^ j ≤ n := by omega
      rw [decide_eq_decide.2 hle]
      split
      · rw [Nat.testBit_xor, Nat.testBit_xor, ih, Bool.xor_assoc]
      · exact ih

/-- The parity bits are fixed by the payload and the syndrome. -/
theorem posAt_two_pow {j : Nat} (hj : j < parityCount n) :
    posAt E (2 ^ j) = Bool.xor ((syndrome E n).testBit j) ((payloadXor E n).testBit j) := by
  simp [testBit_syndrome, (two_pow_le_iff_lt_parityCount n j).2 hj]

theorem eq_of_payload_eq_of_syndrome_eq (hE : E.length = n) (hF : F.length = n)
    (hp : payload E n = payload F n) (hs : syndrome E n = syndrome F n) : E = F := by
  refine ext_bitAt (hE.trans hF.symm) fun i hi => ?_
  rw [← posAt_succ, ← posAt_succ]
  cases hpow : isPow2 (i + 1) with
  | true =>
    have hpos : i + 1 ∈ parityPositions n :=
      mem_parityPositions.2 ⟨hE ▸ hi, (isPow2_iff_exists _).1 hpow⟩
    obtain ⟨j, hj, hq⟩ := mem_parityPositions_iff_exponent.1 hpos
    rw [hq, posAt_two_pow hj, posAt_two_pow hj, hs, payloadXor_congr hp]
  | false =>
    exact payload_eq_iff.1 hp _ (mem_payloadPositions.2 ⟨Nat.le_add_left 1 i, hE ▸ hi, hpow⟩)

/-- Clearing the highest bit of a number, if it is set. -/
theorem clear_bit_lt {t k : Nat} (ht : t < 2 ^ (k + 1)) :
    (if t.testBit k then t ^^^ 2 ^ k else t) < 2 ^ k := by
  refine Nat.lt_pow_two_of_testBit _ fun i hi => ?_
  rcases hi.eq_or_lt with rfl | hlt
  · cases hb : t.testBit k <;> simp [hb, Nat.testBit_two_pow_self]
  · have hbit : t.testBit i = false :=
      Nat.testBit_lt_two_pow (ht.trans_le (Nat.pow_le_pow_right Nat.two_pos hlt))
    split <;> simp [hbit, Nat.testBit_two_pow_of_ne hlt.ne]

/-- Every payload occurs with every syndrome: the last bit of the block is the highest bit of the syndrome
if it stands at a parity position, and the last bit of the payload if not. -/
theorem exists_block {n : Nat} {P : BitSeq} {t : Nat} (hP : P.length = n - parityCount n)
    (ht : t < 2 ^ parityCount n) :
    ∃ E : BitSeq, E.length = n ∧ syndrome E n = t ∧ payload E n = P := by
  induction n generalizing P t with
  | zero =>
    have ht₀ : t = 0 := Nat.lt_one_iff.1 ht
    exact ⟨[], rfl, ht₀.symm, (List.length_eq_zero_iff.1 hP).symm⟩
  | succ n ih =>
    cases hpow : isPow2 (n + 1) with
    | true =>
      rw [parityCount_succ_of_isPow2 hpow] at hP ht
      have hq := succ_eq_two_pow_parityCount hpow
      obtain ⟨E, hE, hs, hp⟩ := ih (hP.trans (Nat.add_sub_add_right _ _ _)) (clear_bit_lt ht)
      refine ⟨E ++ [t.testBit (parityCount n)], by simp [hE], ?_, by simp [payload_append hE, hpow, hp]⟩
      rw [syndrome_append hE, hs, hq]
      cases t.testBit (parityCount n) <;> simp
    | false =>
      have hK := parityCount_le n
      have hlt := lt_two_pow_parityCount (n + 1)
      rw [parityCount_succ_of_not_isPow2 hpow] at hP ht hlt
      obtain ⟨P', b, rfl⟩ : ∃ P' b, P = P' ++ [b] :=
        (List.eq_nil_or_concat' P).resolve_left fun h => by rw [h, List.length_nil] at hP; omega
      have hP' : P'.length = n - parityCount n := by
        rw [List.length_append, List.length_singleton] at hP
        omega
      have ht' : (if b then t ^^^ (n + 1) else t) < 2 ^ parityCount n := by
        split
        · exact Nat.xor_lt_two_pow ht hlt
        · exact ht
      obtain ⟨E, hE, hs, hp⟩ := ih hP' ht'
      refine ⟨E ++ [b], by simp [hE], ?_, by simp [payload_append hE, hpow, hp]⟩
      rw [syndrome_append hE, hs]
      cases b <;> simp

/-! ### Flipped bits (R139, R140) -/

theorem syndrome_flipAt_of_le (hE : E.length = n) (h₁ : 1 ≤ q) (h₂ : q ≤ n) :
    syndrome (flipAt E (q - 1)) n = syndrome E n ^^^ q := by
  rw [syndrome_flipAt h₁ (hE ▸ h₂), if_pos h₂]

/-- The block with the bits at the positions `Q` flipped, one after the other. -/
def flipAll (Q : List Nat) (E : BitSeq) : BitSeq := Q.foldl (fun B q => flipAt B (q - 1)) E

theorem flipAll_cons (q : Nat) (Q : List Nat) (E : BitSeq) :
    flipAll (q :: Q) E = flipAll Q (flipAt E (q - 1)) := rfl

theorem syndrome_flipAll {Q : List Nat} (hE : E.length = n) (hQ : ∀ q ∈ Q, 1 ≤ q ∧ q ≤ n) :
    syndrome (flipAll Q E) n = Q.foldl (· ^^^ ·) (syndrome E n) := by
  induction Q generalizing E with
  | nil => rfl
  | cons q Q ih =>
    obtain ⟨⟨h₁, h₂⟩, hQ⟩ := List.forall_mem_cons.1 hQ
    rw [flipAll_cons, ih ((length_flipAt E _).trans hE) hQ, syndrome_flipAt_of_le hE h₁ h₂,
      List.foldl_cons]

theorem posAt_flipAll {Q : List Nat} (hE : E.length = n) (hnd : Q.Nodup)
    (hQ : ∀ q ∈ Q, 1 ≤ q ∧ q ≤ n) {p : Nat} (hp : 1 ≤ p) :
    posAt (flipAll Q E) p = Bool.xor (posAt E p) (decide (p ∈ Q)) := by
  induction Q generalizing E with
  | nil => simp [flipAll]
  | cons q Q ih =>
    obtain ⟨⟨h₁, h₂⟩, hQ⟩ := List.forall_mem_cons.1 hQ
    obtain ⟨hq, hnd⟩ := List.nodup_cons.1 hnd
    rw [flipAll_cons, ih ((length_flipAt E _).trans hE) hnd hQ, posAt_flipAt h₁ (hE ▸ h₂) hp]
    by_cases hpq : q = p
    · subst hpq
      simp [hq]
    · simp [hpq, Ne.symm hpq]

/-- Two different positions xor to a third number, which is not 0. -/
theorem xor_ne_of_lt {a b : Nat} (ha : 1 ≤ a) (hab : a < b) :
    a ^^^ b ≠ 0 ∧ a ^^^ b ≠ a ∧ a ^^^ b ≠ b := by
  refine ⟨Nat.xor_ne_zero_iff.2 hab.ne, fun h => ?_, fun h => ?_⟩
  · have : b = 0 := Nat.xor_right_inj.1 (h.trans (Nat.xor_zero a).symm)
    omega
  · have : a = 0 := Nat.xor_left_inj.1 (h.trans (Nat.zero_xor b).symm)
    omega

end

/-- Settles O29: the block with that payload and the syndrome 0, of which there is just one. -/
theorem uniqueCodeWordForPayload : Obligations.UniqueCodeWordForPayload := by
  intro n m P hm hP
  obtain ⟨C, hC, hs, hp⟩ := exists_block (hP.trans hm) (Nat.two_pow_pos _)
  refine ⟨C, ⟨hC, hs⟩, hp, ?_, fun j hj => ?_, fun f s hidle hl hx hy hA => ?_⟩
  · rintro C' ⟨hC', hs'⟩ hp'
    exact eq_of_payload_eq_of_syndrome_eq hC' hC (hp'.trans hp.symm) (hs'.trans hs.symm)
  · rw [posAt_two_pow hj, hs, Nat.zero_testBit, Bool.false_xor, payloadXor]
  · have hop : DecOperands f C n m := ⟨hl, hx, hy, hA, hm⟩
    exact hp ▸ hop.answers_of_no_error hs s hidle

/-- Settles O30: the syndrome of the block is the flipped position, so the decode flips it back. -/
theorem singleErrorIsCorrected : Obligations.SingleErrorIsCorrected := by
  rintro n m q C f s hidle hm ⟨hC, hs⟩ h₁ h₂ hl hx hy hA
  have hS : syndrome (flipAt C (q - 1)) n = q := by
    rw [syndrome_flipAt_of_le hC h₁ h₂, hs, Nat.zero_xor]
  have hop : DecOperands f (flipAt C (q - 1)) n m := ⟨hl, hx, hy, hA, hm⟩
  have ha := hop.answers_of_correctable (hS.symm ▸ h₁) (hS.symm ▸ h₂)
  rw [hS, flipAt_flipAt] at ha
  exact ⟨hS, ha s hidle⟩

/-- Settles O31: each flip adds its position to the syndrome, which then decides. -/
theorem severalErrorsAreNotCorrected : Obligations.SeveralErrorsAreNotCorrected := by
  refine ⟨?_, fun n a b ha hab _ => xor_ne_of_lt ha hab⟩
  rintro n m C B Q ⟨hC, hs⟩ hnd hQ hB hm S
  have hS : syndrome B n = S := by rw [hB, ← flipAll, syndrome_flipAll hC hQ, hs]
  refine ⟨hS, fun q h₁ _ => hB ▸ posAt_flipAll hC hnd hQ h₁, fun f s hidle hl hx hy hA => ?_⟩
  have hop : DecOperands f B n m := ⟨hl, hx, hy, hA, hm⟩
  rw [← hS]
  exact ⟨fun h => hop.answers_of_no_error h s hidle,
    fun h₁ h₂ => hop.answers_of_correctable h₁ h₂ s hidle,
    fun h => hop.answers_of_uncorrectable h s hidle⟩

/-- A full block, of one less than `2^K(n)` positions, has no syndrome outside it (R141). -/
theorem hamDec_status_of_full_block {f : Fields} (h : f.x = 2 ^ parityCount f.x - 1) :
    (hamDec f).status ≠ .uncorrectablePosition := by
  rcases hamDec_cases f with ⟨-, hr⟩ | ⟨-, -, hr⟩ | ⟨-, -, -, hr⟩ | ⟨-, -, -, -, hr⟩ | ⟨-, -, hout, -⟩
  · simp [hr]
  · simp [hr]
  · simp [hr]
  · simp [hr]
  · have := syndrome_lt_two_pow_parityCount (seqA f) f.x
    omega

/-- Settles O32: the syndrome has `K(n)` bits, and each number of `K(n)` bits is one. -/
theorem whenSyndromeLeavesTheBlock : Obligations.WhenSyndromeLeavesTheBlock := by
  intro n
  refine ⟨fun E _ => syndrome_lt_two_pow_parityCount E n, ?_, fun v _ hv => ?_⟩
  · rintro hfull f s hidle rfl
    exact ⟨hamDec f, (answers_hamDec f _).2 rfl s hidle, hamDec_status_of_full_block hfull⟩
  · obtain ⟨E, hE, hs, -⟩ := exists_block (length_zeros (n - parityCount n)) hv
    exact ⟨E, hE, hs⟩

end Sys2Proof.Machine
end

section
/-! SUPPORT. The errors (spec 60_exceptions.md R170, R171, R176 to R181): the causes of an error as a table
that every answer of a command meets, and that an error, like every response, leaves nothing behind. -/

namespace Sys2Proof.Machine

/-! ### Every cause of an error (R171, R177) -/

/-- What a command with the opcode `op` and the fields `f` is answered, and why: a row of R171 for each
error, whose condition excludes the causes checked before it (R177), and OK when no row applies. -/
inductive Verdict (op : Nat) (f : Fields) : Response → Prop
  | illegalOp (hop : op = 0 ∨ op = 6 ∨ op = 7) :
      Verdict op f ⟨.invalidInput, .illegalOp, false, 0, 0, 0, 0⟩
  | badGenerator (hop : op = 1 ∨ op = 2 ∨ op = 3) (hbad : f.lenb = 0 ∨ f.seqb.testBit 0 = false) :
      Verdict op f ⟨.invalidInput, .badGenerator, false, 0, 0, 0, 0⟩
  | frameShort (hop : op = 1 ∨ op = 2 ∨ op = 3) (h₀ : f.lenb ≠ 0) (h₁ : f.seqb.testBit 0 = true)
      (hlt : f.lena < f.lenb) :
      Verdict op f ⟨.invalidInput, .frameShort, false, 0, 0, 0, 0⟩
  | verificationFailed (hop : op = 3) (hgood : CrcInputsGood f)
      (hrem : true ∈ mod2div (seqA f) f.lena (seqB f) f.lenb) :
      Verdict op f ⟨.verificationFailed, .none, false, 0, 0, 0, 0⟩
  | lengthMismatch (hop : op = 5) (hl : f.lena ≠ f.x) :
      Verdict op f ⟨.invalidInput, .lengthMismatch, false, 0, 0, 0, 0⟩
  | layoutMismatch (hop : op = 5) (hl : f.lena = f.x) (hm : f.y ≠ f.x - parityCount f.x) :
      Verdict op f ⟨.invalidInput, .layoutMismatch, false, 0, 0, 0, 0⟩
  | uncorrectable (hop : op = 5) (hl : f.lena = f.x) (hm : f.y = f.x - parityCount f.x)
      (hout : f.x < syndrome (seqA f) f.x) :
      Verdict op f ⟨.uncorrectablePosition, .none, false, 0, 0, syndrome (seqA f) f.x, 0⟩
  | ok {r : Response} (hs : r.status = .ok) (hd : r.detail = .none) (hop : 1 ≤ op ∧ op ≤ 5)
      (hcrc : op ≤ 3 → CrcInputsGood f)
      (hvfyx : op = 3 → true ∉ mod2div (seqA f) f.lena (seqB f) f.lenb)
      (hdec : op = 5 → f.lena = f.x ∧ f.y = f.x - parityCount f.x ∧ syndrome (seqA f) f.x ≤ f.x) :
      Verdict op f r

section
variable (f : Fields)

/-- The CRC operations share the two checks, so only their answers to good inputs are left to each. -/
theorem verdict_crcOp {op : Nat} (hop : op = 1 ∨ op = 2 ∨ op = 3) (answer : BitSeq → Response)
    (hanswer : CrcInputsGood f → Verdict op f (answer (mod2div (seqA f) f.lena (seqB f) f.lenb))) :
    Verdict op f (crcOp f answer) := by
  rcases crcOp_cases f answer with ⟨hbad, hr⟩ | ⟨h₀, h₁, hlt, hr⟩ | ⟨h₀, h₁, hle, hr⟩ <;> rw [hr]
  · exact .badGenerator hop hbad
  · exact .frameShort hop h₀ h₁ hlt
  · exact hanswer ⟨Nat.one_le_iff_ne_zero.2 h₀, h₁, hle⟩

theorem verdict_crcDiv : Verdict 1 f (crcDiv f) :=
  verdict_crcOp f (by simp) _ fun hgood => .ok rfl rfl (by simp) (fun _ => hgood) (by simp) (by simp)

theorem verdict_crcVfy : Verdict 2 f (crcVfy f) :=
  verdict_crcOp f (by simp) _ fun hgood => .ok rfl rfl (by simp) (fun _ => hgood) (by simp) (by simp)

theorem verdict_crcVfyx : Verdict 3 f (crcVfyx f) := by
  refine verdict_crcOp f (by simp) _ fun hgood => ?_
  split
  case isTrue hzero =>
    exact .ok rfl rfl (by simp) (fun _ => hgood) (fun _ => (allZero_iff _).1 hzero) (by simp)
  case isFalse hzero =>
    exact .verificationFailed rfl hgood ((allZero_eq_false_iff _).1 (Bool.not_eq_true _ ▸ hzero))

theorem verdict_hamVal : Verdict 4 f (hamVal f) :=
  .ok rfl rfl (by simp) (by simp) (by simp) (by simp)

theorem verdict_hamDec : Verdict 5 f (hamDec f) := by
  rcases hamDec_cases f with ⟨hl, h⟩ | ⟨hl, hm, h⟩ | ⟨hl, hm, hzero, h⟩ | ⟨hl, hm, -, hle, h⟩ |
    ⟨hl, hm, hout, h⟩ <;> rw [h]
  · exact .lengthMismatch rfl hl
  · exact .layoutMismatch rfl hl hm
  · exact .ok rfl rfl (by simp) (by simp) (by simp) fun _ => ⟨hl, hm, hzero ▸ Nat.zero_le _⟩
  · exact .ok rfl rfl (by simp) (by simp) (by simp) fun _ => ⟨hl, hm, hle⟩
  · exact .uncorrectable rfl hl hm hout

end

theorem Answers.verdict {i : Instr} {r : Response} (h : Answers i r) : Verdict i.opcode i.fields r := by
  cases i with
  | crcDiv f => exact (answers_crcDiv f r).1 h ▸ verdict_crcDiv f
  | crcVfy f => exact (answers_crcVfy f r).1 h ▸ verdict_crcVfy f
  | crcVfyx f => exact (answers_crcVfyx f r).1 h ▸ verdict_crcVfyx f
  | hamVal f => exact (answers_hamVal f r).1 h ▸ verdict_hamVal f
  | hamDec f => exact (answers_hamDec f r).1 h ▸ verdict_hamDec f
  | reserved0 f => exact (answers_reserved0 f r).1 h ▸ .illegalOp (.inl rfl)
  | reserved6 f => exact (answers_reserved6 f r).1 h ▸ .illegalOp (.inr (.inl rfl))
  | reserved7 f => exact (answers_reserved7 f r).1 h ▸ .illegalOp (.inr (.inr rfl))

/-- Settles O36: by the rows of the table: each has a status and detail of its own, and a condition that
contradicts that of every other row. -/
theorem everyCauseOfAnError : Obligations.EveryCauseOfAnError := by
  intro i r h
  cases h.verdict with
  | illegalOp hop => grind
  | badGenerator hop hbad => grind [CrcInputsGood]
  | frameShort hop h₀ h₁ hlt => grind [CrcInputsGood]
  | verificationFailed hop hgood hrem => grind [CrcInputsGood]
  | lengthMismatch hop hl => grind
  | layoutMismatch hop hl hm => grind
  | uncorrectable hop hl hm hout => grind
  | ok hs hd hop hcrc hvfyx hdec => grind [CrcInputsGood]

/-! ### An error response (R176) -/

/-- Settles O37: by the rows of the table, for the one response that is held. -/
theorem errorResponseCarriesNoResult : Obligations.ErrorResponseCarriesNoResult := by
  intro i s t hs h
  obtain ⟨r, ha, -⟩ := exists_answer i
  cases (ha s hs).symm.trans h
  refine ⟨rfl, fun herr => ?_⟩
  cases ha.verdict with
  | ok hok => exact absurd hok herr
  | _ => simp

/-! ### Nothing but the three transitions (R178, R181) -/

theorem step_of_no_sched {s : State} (hs : s.sched = []) : step s = .next s := by
  simp [step, hs]

/-- Settles O48: by the cases of a completed step, of which only the last three change `PHASE` or `RSP`, each
at the host's request for it. -/
theorem onlyTransitionsChangeCore : Obligations.OnlyTransitionsChangeCore := by
  intro s t h
  refine ⟨fun hn => ?_, ?_⟩
  · cases (step_of_no_sched hn).symm.trans h
    rfl
  · rcases step_next_cases h with rfl | ⟨_, _, _, _, hs, hp, -, -, -, rfl⟩ | ⟨hs, hp, rfl⟩ | ⟨hs, rfl⟩
    · cases hp : s.phase <;> simp [hp]
    · simp [hs, hp]
    · simp [hs, hp]
    · simp [hs]

/-- Settles O50: a step that does not complete found an undecodable number at the port, and every word of
`CW` bits decodes. -/
theorem everyCommandGetsAResponse : Obligations.EveryCommandGetsAResponse := by
  refine ⟨fun s => ?_, fun i s hs => ?_⟩
  · rcases step_cases s with ⟨-, h⟩ | ⟨_, -, -, h⟩ | ⟨_, w, ws, e, hs, hp, hc, hd, h⟩ |
      ⟨_, _, _, i, -, hp, -, -, h⟩ | ⟨_, -, h⟩ | ⟨_, -, h⟩
    · exact .inl ⟨_, h⟩
    · exact .inl ⟨_, h⟩
    · refine .inr ⟨h, hp, by simp [hs], w, ws, hc, not_lt.1 fun hw => ?_⟩
      obtain ⟨i, hi⟩ := exists_decode_eq_ok hw
      cases hd.symm.trans hi
    · obtain ⟨r, ha, -⟩ := exists_answer i
      exact .inl ⟨_, h.trans (ha _ hp)⟩
    · exact .inl ⟨_, h⟩
    · exact .inl ⟨_, h⟩
  · obtain ⟨r, ha, -⟩ := exists_answer i
    exact ⟨_, ha s hs, rfl⟩

/-! ### An error that is taken (R179) -/

/-- TAKE of a response that waits: the response and its command are delivered, and neither is left in the
state. -/
theorem step_take_of_done {s : State} {ss : List HostStep} (hs : s.sched = .take :: ss)
    (hp : s.phase = .done) :
    step s = .next { s with
      phase := .idle, rsp := Config.freeRsp s.freeCount, sched := ss, inFlight := none,
      delivered := s.delivered ++ [⟨s.inFlight, s.rsp⟩], freeCount := s.freeCount + 1 } :=
  (step_take hs).trans (congrArg _ (State.takeRsp_done hp))

/-- Settles O55: the response and the note that TAKE finds go into the deliveries only, and at the two free
ports it leaves, a command's response depends on the command alone. -/
theorem takenErrorLeavesNoTrace : Obligations.TakenErrorLeavesNoTrace := by
  intro s t t' ss e c hp hs _ _ h h'
  cases (step_take_of_done hs hp).symm.trans h
  cases (step_take_of_done (s := { s with rsp := e, inFlight := c }) hs hp).symm.trans h'
  refine ⟨rfl, rfl, fun i => ?_⟩
  obtain ⟨r, ha, -⟩ := exists_answer i
  exact ⟨r, _, _, ha _ rfl, ha _ rfl, rfl, rfl, ha⟩

end Sys2Proof.Machine
end

section
/-! SUPPORT. Reset and runs (spec 70_reset_and_hazards.md R202, R208, R214): a decode with an invalid
configuration, a command issued again after RESET, and the runs in which the host chooses the transitions. -/

namespace Sys2Proof.Machine

/-! ### A decode with an invalid configuration (R208) -/

/-- Settles O34: a consistent layout has the redundancy, so one of the two checks fails. -/
theorem invalidConfigurationIsNeverDecoded : Obligations.InvalidConfigurationIsNeverDecoded := by
  intro f s hs hinvalid
  have hlayout : ¬ LayoutConsistent f.x f.y := fun h => hinvalid h.redundancy
  by_cases hl : f.lena = f.x
  · exact .inr (answers_hamDec_of_layout_mismatch hl hlayout s hs)
  · exact .inl (answers_hamDec_of_length_mismatch hl s hs)

/-! ### A command issued again after RESET (R202) -/

/-- Settles O54: RESET frees the port and leaves the second copy of the command on it, and both ISSUEs hold
the one response of the command. -/
theorem reissueAfterResetGivesTheSameResponse : Obligations.ReissueAfterResetGivesTheSameResponse := by
  intro s w ws ss i hp hc hs hd
  obtain ⟨r, ha, -⟩ := exists_answer i
  let t₁ : State := { s with
    phase := .done, rsp := r, cmds := w :: ws, sched := .reset :: .issue :: ss, inFlight := some i }
  let t₂ : State := State.resetCore { t₁ with sched := .issue :: ss }
  have h₁ : step s = .next t₁ := step_issue_of_answers hs hp hc hd ha
  have h₂ : step t₁ = .next t₂ := step_reset rfl
  have h₃ := step_issue_of_answers (s := t₂) rfl rfl rfl hd ha
  exact ⟨t₁, t₂, _, h₁, h₂, h₃, rfl, rfl, rfl, rfl, rfl, rfl⟩

/-! ### Every choice of the host is a run (R214) -/

theorem exists_step_ask_eq_next {s : State} {m : Move} (h : m.enabled s) :
    ∃ t, step (s.ask m) = .next t := by
  rcases step_ask_cases h with ⟨_, _, _, -, -, -, -, hn⟩ | ⟨-, -, hn⟩ | ⟨-, hn⟩ <;> exact ⟨_, hn⟩

/-- The state after the transition the host chose: `s` itself when it chose none, or when the transition
does not complete, which an enabled one always does. -/
def State.afterChoice (s : State) : Option Move → State
  | none => s
  | some m =>
    match step (s.ask m) with
    | .next t => t
    | _ => s

theorem State.afterChoice_none (s : State) : s.afterChoice none = s := rfl

theorem step_ask_eq_next_afterChoice {s : State} {m : Move} (h : m.enabled s) :
    step (s.ask m) = .next (s.afterChoice (some m)) := by
  obtain ⟨t, ht⟩ := exists_step_ask_eq_next h
  simp [State.afterChoice, ht]

/-- The states that the host's choices lead through from `s`. -/
def statesOfChoices (choose : Nat → State → Option Move) (s : State) : Nat → State
  | 0 => s
  | n + 1 =>
    let t := statesOfChoices choose s n
    t.afterChoice (choose n t)

theorem statesOfChoices_succ (choose : Nat → State → Option Move) (s : State) (n : Nat) :
    statesOfChoices choose s (n + 1) =
      (statesOfChoices choose s n).afterChoice (choose n (statesOfChoices choose s n)) := rfl

theorem isRun_statesOfChoices {choose : Nat → State → Option Move} (s : State)
    (hen : ∀ n t m, choose n t = some m → m.enabled t)
    (hstop : ∀ n t, choose n t = none → choose (n + 1) t = none) :
    IsRun (fun n => choose n (statesOfChoices choose s n)) (statesOfChoices choose s) where
  enabled n m hm := hen n _ m hm
  next n m hm := by
    rw [statesOfChoices_succ, hm]
    exact step_ask_eq_next_afterChoice (hen n _ m hm)
  stops n hn := by
    have hstay : statesOfChoices choose s (n + 1) = statesOfChoices choose s n := by
      rw [statesOfChoices_succ, hn, State.afterChoice_none]
    exact ⟨hstay, (congrArg (choose (n + 1)) hstay).trans (hstop n _ hn)⟩

/-- The step is a function, so a run goes where the step of the chosen transition goes. -/
theorem IsRun.succ_eq_of_step {h : Nat → Option Move} {σ : Nat → State} (hr : IsRun h σ) {n : Nat} {m : Move}
    {t : State} (hn : h n = some m) (hs : step ((σ n).ask m) = .next t) : σ (n + 1) = t :=
  Host.Outcome.next.inj ((hr.next n m hn).symm.trans hs)

theorem IsRun.states_unique {h : Nat → Option Move} {σ τ : Nat → State} (hσ : IsRun h σ) (hτ : IsRun h τ)
    (h₀ : σ 0 = τ 0) (n : Nat) : σ n = τ n := by
  induction n with
  | zero => exact h₀
  | succ n ih =>
    cases hn : h n with
    | none =>
      calc σ (n + 1) = σ n := (hσ.stops n hn).1
        _ = τ n := ih
        _ = τ (n + 1) := (hτ.stops n hn).1.symm
    | some m => exact hσ.succ_eq_of_step hn (ih ▸ hτ.next n m hn)

/-- Settles O57: an enabled transition completes, so the choices lead through states without end; and
two runs with the same choices stay together step by step. -/
theorem everyHostChoiceIsARun : Obligations.EveryHostChoiceIsARun :=
  ⟨fun choose s hen hstop => ⟨statesOfChoices choose s, rfl, isRun_statesOfChoices s hen hstop⟩,
    fun _ _ _ => IsRun.states_unique⟩

/-! ### What a run delivers (R214) -/

namespace IsRun
variable {h : Nat → Option Move} {σ : Nat → State}

/-- Everything that can happen at one place of a run: it is over, a command was issued and answered, the
response that waited was taken, or the port was reset. -/
theorem next_cases (hr : IsRun h σ) (n : Nat) :
    (h n = none ∧ h (n + 1) = none ∧ σ (n + 1) = σ n) ∨
    (∃ w i r, h n = some (.issue w) ∧ decode (σ n).params w = .ok i ∧ Answers i r ∧
      σ (n + 1) = { σ n with phase := .done, rsp := r, inFlight := some i }) ∨
    (h n = some .take ∧ (σ n).phase = .done ∧ σ (n + 1) = (σ n).takeRsp) ∨
    (h n = some .reset ∧ σ (n + 1) = (σ n).resetCore) := by
  cases hn : h n with
  | none => exact .inl ⟨rfl, (hr.stops n hn).symm⟩
  | some m =>
    rcases step_ask_cases (hr.enabled n m hn) with
      ⟨w, i, r, rfl, -, hd, hi, hs⟩ | ⟨rfl, hp, hs⟩ | ⟨rfl, hs⟩
    · exact .inr (.inl ⟨w, i, r, rfl, hd, (answers_iff hi r).2 rfl, hr.succ_eq_of_step hn hs⟩)
    · exact .inr (.inr (.inl ⟨rfl, hp, hr.succ_eq_of_step hn hs⟩))
    · exact .inr (.inr (.inr ⟨rfl, hr.succ_eq_of_step hn hs⟩))

theorem params_eq (hr : IsRun h σ) (n : Nat) : (σ n).params = (σ 0).params := by
  induction n with
  | zero => rfl
  | succ n ih =>
    rw [← ih]
    rcases hr.next_cases n with ⟨-, -, hs⟩ | ⟨_, _, _, -, -, -, hs⟩ | ⟨-, -, hs⟩ | ⟨-, hs⟩ <;> simp [hs]

/-- A response that waits while the run goes on was formed by the transition just before, an ISSUE: after
TAKE and RESET none waits, and once the host has chosen nothing it chooses nothing more. -/
theorem issued_before_done (hr : IsRun h σ) {k : Nat} (hgo : h (k + 1) ≠ none)
    (hp : (σ (k + 1)).phase = .done) :
    ∃ w i, h k = some (.issue w) ∧ decode (σ 0).params w = .ok i ∧
      Answers i (σ (k + 1)).rsp ∧ (σ (k + 1)).inFlight = some i := by
  rcases hr.next_cases k with ⟨-, hstop, -⟩ | ⟨w, i, r, hk, hd, ha, hs⟩ | ⟨-, -, hs⟩ | ⟨-, hs⟩
  · exact absurd hstop hgo
  · rw [hs]
    exact ⟨w, i, hk, hr.params_eq k ▸ hd, ha, rfl⟩
  · simp [hs] at hp
  · simp [hs] at hp

theorem delivered_of_take (hr : IsRun h σ) {n : Nat} (hn : h n = some .take) :
    (σ (n + 1)).delivered = (σ n).delivered ++ [⟨(σ n).inFlight, (σ n).rsp⟩] := by
  rw [hr.succ_eq_of_step hn (step_ask_take _), State.takeRsp_delivered_of_done (hr.enabled n _ hn)]

theorem delivered_of_ne_take (hr : IsRun h σ) {n : Nat} (hn : h n ≠ some .take) :
    (σ (n + 1)).delivered = (σ n).delivered := by
  rcases hr.next_cases n with ⟨-, -, hs⟩ | ⟨_, _, _, -, -, -, hs⟩ | ⟨htake, -⟩ | ⟨-, hs⟩
  · rw [hs]
  · rw [hs]
  · exact absurd htake hn
  · rw [hs, State.resetCore_delivered]

end IsRun

/-- Settles O58: TAKE finds a response waiting, so it is not the first transition, and the one before it was
the ISSUE that formed the response and noted its command. -/
theorem runDeliversPairs : Obligations.RunDeliversPairs := by
  intro h σ hr hq n
  refine ⟨fun hn => ?_, hr.delivered_of_ne_take⟩
  have hp : (σ n).phase = .done := hr.enabled n _ hn
  have hdel := hr.delivered_of_take hn
  cases n with
  | zero => simp [State.quiescent, hp] at hq
  | succ k =>
    obtain ⟨w, i, hk, hd, ha, hf⟩ := hr.issued_before_done (by simp [hn]) hp
    exact ⟨k, w, i, _, rfl, hk, hd, ha, hf ▸ hdel⟩

end Sys2Proof.Machine
end
